-- ==== Sys2Proof/Word.lean ====
section
/-! DEFINITION. The word and byte of the machine (00_scope.md R5, R6). -/

namespace Sys2Proof

/-- A 16-bit word: register contents, addresses in registers, instruction words (R5: XLEN = ILEN = 16). -/
abbrev Word := BitVec 16

/-- One byte of memory, an opcode byte, an 8-bit immediate or a signal id. -/
abbrev Byte := BitVec 8

end Sys2Proof
end

