-- ==== Sys2Proof/Config.lean ====
section
/-! DEFINITION. What an implementation and a launch fix: the parameters of 00_scope.md R5, the register names, the
error names, the plain data of registers, memory and signal handlers, and the free values the spec leaves open. -/

namespace Sys2Proof

/-- The eight registers in the fixed order of 10_state.md R21: ids 0 to 7. There is no ninth name: ids 8 to 15 are
"unassigned and invalid" and are rejected by the decoder (R74). -/
inductive Reg where
  | a | b | c | m | sp | pc | bp | flags
  deriving DecidableEq, Repr, Inhabited

/-- The engine's errors, 60_exceptions.md R180, each with its diagnostic value `info` (D8, log 11). -/
inductive EngineError where
  /-- DECODE: the opcode byte is not executable; info: the opcode byte. -/
  | unknownOp (op : Byte)
  /-- DECODE: a register field holds 8 to 15; info: the field. -/
  | unknownReg (field : BitVec 4)
  /-- EXECUTE: a pop address is out of bounds; info: the address. -/
  | readFault (addr : Word)
  /-- EXECUTE: a push address is out of bounds; info: the address. -/
  | writeFault (addr : Word)
  /-- FETCH: Pc is out of bounds; info: Pc. -/
  | pcFault (pc : Word)
  /-- EXECUTE of Signal: no handler for the id; info: the id. -/
  | unknownSignal (id : Byte)
  /-- Never raised by the CORE; a handler may return it (R180, code 7). -/
  | unknownFile
  deriving DecidableEq, Repr, Inhabited

/-- Where a handler's memory access goes: a fixed address, or the address a register holds (log 21). -/
inductive HandlerAddr where
  | fixed (a : Nat)
  | inReg (r : Reg)
  deriving DecidableEq, Repr, Inhabited

/-- A signal handler as plain data (log 21): the sequence of port operations the host function performs during its
invocation (44_signal.md R151), ending in its result. -/
inductive Handler where
  /-- Return `Ok` (R151). -/
  | returnOk
  /-- Return an error of the taxonomy, unchanged (60_exceptions.md R181). -/
  | returnErr (e : EngineError)
  /-- Return the result of the latest nested step (`Ok` if there was none) (R152, R189). -/
  | returnStepResult
  /-- `setRegister(r, v)` (10_state.md R36). -/
  | setRegister (r : Reg) (v : Word) (next : Handler)
  /-- `setRegister(dst, getRegister(src))` (R36). -/
  | copyRegister (dst src : Reg) (next : Handler)
  /-- Go on one way if `getRegister(r) = v`, another way if not (R36). -/
  | ifRegister (r : Reg) (v : Word) (yes no : Handler)
  /-- Go on one way if the halt flag is set, another way if not (10_state.md R31, R37). -/
  | ifHalt (yes no : Handler)
  /-- `readByte(addr)` of the memory port (20_memory.md R64, R47): where it succeeds `setRegister` of the byte,
  zero-extended (log 25), where it fails nothing; go on by the port's result. -/
  | loadByte (r : Reg) (addr : HandlerAddr) (onOk onFail : Handler)
  /-- `readWord(addr)` of the memory port (R64, R49): where it succeeds `setRegister` of the word, where it fails
  nothing; go on by the port's result. -/
  | loadWord (r : Reg) (addr : HandlerAddr) (onOk onFail : Handler)
  /-- `writeByte(addr, v)` of the memory port (R64, R48); go on by the port's result. -/
  | writeByte (addr : HandlerAddr) (v : Byte) (onOk onFail : Handler)
  /-- `writeWord(addr, v)` of the memory port (R64, R50); go on by the port's result. -/
  | writeWord (addr : HandlerAddr) (v : Word) (onOk onFail : Handler)
  /-- `writeByte(addr, getRegister(src)[7:0])` (R64, R48, log 25); go on by the port's result. -/
  | storeByte (addr : HandlerAddr) (src : Reg) (onOk onFail : Handler)
  /-- `writeWord(addr, getRegister(src))` (R64, R50); go on by the port's result. -/
  | storeWord (addr : HandlerAddr) (src : Reg) (onOk onFail : Handler)
  /-- Set or clear the halt flag (10_state.md R31). -/
  | setHalt (v : Bool) (next : Handler)
  /-- `defineHandler(id, h)` (R32, 44_signal.md R153). -/
  | defineHandler (id : Byte) (h : Handler) (next : Handler)
  /-- Call `step()` and go on by its result (R152, R189). -/
  | step (onOk onErr : Handler)
  /-- From here on the model does not know what the host function does: every outcome is admitted (R151, D14,
  log 22). `key` tells one unknown host function from another. -/
  | unknown (key : Nat)
  deriving DecidableEq, Repr, Inhabited

namespace Machine

/-- The register file, 8 slots of 16 bits (10_state.md R20, R21). -/
structure Regs where
  a : Word
  b : Word
  c : Word
  m : Word
  sp : Word
  pc : Word
  bp : Word
  flags : Word
  deriving DecidableEq, Repr, Inhabited

/-- The one memory instance (10_state.md R33, 20_memory.md R45): its capacity MEM_SIZE in bytes, and the bytes that
are not zero, by rising address (`Memory.wf`; log 3, log 27). -/
structure Memory where
  size : Nat
  cells : List Host.Cell
  deriving DecidableEq, Repr, Inhabited

/-- The signal handler table H (10_state.md R32): id and handler, by rising id. -/
abbrev HandlerTable := List (Byte × Handler)

/-- What a handler has exclusive access to (10_state.md R39): registers, halt flag, handler table, memory. -/
structure MachineView where
  regs : Regs
  halt : Bool
  handlers : HandlerTable
  mem : Memory
  deriving DecidableEq, Repr, Inhabited

/-- What an unknown handler leaves behind (44_signal.md R151: a pair of state after and result): all registers, the
halt flag, all of the handler table, any bytes of memory, and `Ok` (`none`) or an error. -/
structure HandlerOutcome where
  regs : Regs
  halt : Bool
  handlers : HandlerTable
  writes : List Host.Cell
  result : Option EngineError
  deriving DecidableEq, Repr, Inhabited

end Machine

namespace Config

/-- MEM_SIZE's default (00_scope.md R5; an unaudited literal of the source, log 29). -/
def defaultMemSize : Nat := 8192

/-- The least MEM_SIZE (R5, D16). -/
def minMemSize : Nat := 2

/-- The greatest MEM_SIZE (R5, D16). -/
def maxMemSize : Nat := 65536

/-- The signal id of the reference host's halt handler (70_reset_and_hazards.md R223, R224; log 29). -/
def haltSignal : Byte := 0xF0#8

/-- How many steps nested inside handlers of one another the model follows; deeper ones end in a free value
(DESIGN CHOICE, log 23). -/
def nestingLimit : Nat := 8

/-- FREE VALUE (log 22). What the unknown handler `key` does, for the `free`-th free value used and the machine it is
handed: 44_signal.md R151, "a handler the model does not know is the relation that admits every pair". -/
opaque unknownHandler : (key free : Nat) → Machine.MachineView → Machine.HandlerOutcome

/-- FREE VALUE (log 23). What a step nested deeper than `nestingLimit` does. -/
opaque deepNestedStep : (free : Nat) → Machine.MachineView → Machine.HandlerOutcome

end Config

end Sys2Proof
end

