-- ==== Sys2Proof/Syntax.lean ====
section
/-! DEFINITION. The instructions: one constructor per row of spec/opcode_table.json (30_encoding.md R73). -/

namespace Sys2Proof

/-- An instruction, "a symbolic operation plus zero or more operands" (00_scope.md R14). A register operand that the
decoder checks is one of the eight names; JmpReg's is the raw 4-bit field, "a register id (never examined)" (R140,
log 26). -/
inductive Instr where
  /-- Nop, 0x00, format N (R120). -/
  | nop
  /-- Push imm8, 0x01, format I (R125). -/
  | push (imm : Byte)
  /-- PopRegister r, 0x02, format R (R126). -/
  | popRegister (r : Reg)
  /-- PushRegister r, 0x03, format R (R127). -/
  | pushRegister (r : Reg)
  /-- JmpReg r, 0x07, format R, not executed (R140). -/
  | jmpReg (field : BitVec 4)
  /-- JmpImm, 0x08, format N, not executed (R141). -/
  | jmpImm
  /-- Signal imm8, 0x0F, format I (R150). -/
  | signal (id : Byte)
  /-- AddStack, 0x10, format N (R160). -/
  | addStack
  /-- AddRegister r1, r2, 0x11, format RR (R161). -/
  | addRegister (r1 r2 : Reg)
  deriving DecidableEq, Repr, Inhabited

end Sys2Proof
end

