-- ==== Sys2Proof/WellFormed.lean ====
section
/-! DEFINITION. The well-formed instructions, those the encoder of 30_encoding.md R81 is total over. -/

namespace Sys2Proof

/-- R81 encodes `JmpReg(r)` for "r: 0..7" only. Every other operand is within its range by its type: an imm8 has 8
bits and a checked register operand is one of the eight names (R74). -/
def Instr.wellFormed : Instr → Bool
  | .jmpReg field => field.toNat < 8
  | .nop => true
  | .push _ => true
  | .popRegister _ => true
  | .pushRegister _ => true
  | .jmpImm => true
  | .signal _ => true
  | .addStack => true
  | .addRegister _ _ => true

/-- `wellFormed` as a proposition; `decide` runs on it. -/
abbrev Instr.WellFormed (i : Instr) : Prop := i.wellFormed = true

/-- The instructions "executed by the step" (R73, column 5): all but JmpReg and JmpImm. -/
def Instr.executed : Instr → Bool
  | .jmpReg _ => false
  | .jmpImm => false
  | .nop => true
  | .push _ => true
  | .popRegister _ => true
  | .pushRegister _ => true
  | .signal _ => true
  | .addStack => true
  | .addRegister _ _ => true

end Sys2Proof
end

