-- ==== Sys2Proof/Decode.lean ====
section
/-! DEFINITION. From bits to instructions and back: the fields of the instruction word, the opcode-byte decoder and
the word decoder of 30_encoding.md, and the encoder of R81. -/

namespace Sys2Proof

/-! ### Fields of the instruction word -/

/-- `w[7:0]`, the opcode byte (R71). -/
def opcodeField (w : Word) : Byte := w.extractLsb' 0 8

/-- `w[15:8]`, the payload: imm8 in format I (R72, R75). -/
def immField (w : Word) : Byte := w.extractLsb' 8 8

/-- `w[11:8]`: r in format R, r1 in format RR (R72). -/
def regField (w : Word) : BitVec 4 := w.extractLsb' 8 4

/-- `w[15:12]`: r2 in format RR (R72). -/
def reg2Field (w : Word) : BitVec 4 := w.extractLsb' 12 4

/-- The word whose low byte stands at the lower address (20_memory.md R49, R52). -/
def wordOfBytes (lo hi : Byte) : Word := hi ++ lo

/-- `v[7:0]`, the byte stored at the lower address (R50). -/
def lowByte (v : Word) : Byte := v.extractLsb' 0 8

/-- `v[15:8]`, the byte stored at the higher address (R50). -/
def highByte (v : Word) : Byte := v.extractLsb' 8 8

/-! ### Registers -/

/-- The register a 4-bit field selects, in the order {A, B, C, M, Sp, Pc, Bp, Flags}; "a register field value in
[8,15] always fails decode as UnknownReg" (R74). -/
def Reg.ofField (f : BitVec 4) : Except EngineError Reg :=
  match f.toNat with
  | 0 => .ok .a
  | 1 => .ok .b
  | 2 => .ok .c
  | 3 => .ok .m
  | 4 => .ok .sp
  | 5 => .ok .pc
  | 6 => .ok .bp
  | 7 => .ok .flags
  | _ => .error (.unknownReg f)

/-- The id of a register (10_state.md R21). -/
def Reg.field : Reg → BitVec 4
  | .a => 0#4
  | .b => 1#4
  | .c => 2#4
  | .m => 3#4
  | .sp => 4#4
  | .pc => 5#4
  | .bp => 6#4
  | .flags => 7#4

/-! ### The opcode-byte decoder (R77) -/

/-- "a numeric byte identifying a symbolic operation" (00_scope.md R14): the nine opcodes of R73. -/
inductive OpCode where
  | nop | push | popRegister | pushRegister | jmpReg | jmpImm | signal | addStack | addRegister
  deriving DecidableEq, Repr, Inhabited

/-- The opcode byte of R73. -/
def OpCode.byte : OpCode → Byte
  | .nop => 0x00#8
  | .push => 0x01#8
  | .popRegister => 0x02#8
  | .pushRegister => 0x03#8
  | .jmpReg => 0x07#8
  | .jmpImm => 0x08#8
  | .signal => 0x0F#8
  | .addStack => 0x10#8
  | .addRegister => 0x11#8

/-- `decode(byte) -> Option<OpCode>`, "partial, defined only for enumerated values" (R77), JmpReg and JmpImm among
them. -/
def OpCode.ofByte (b : Byte) : Option OpCode :=
  match b.toNat with
  | 0x00 => some .nop
  | 0x01 => some .push
  | 0x02 => some .popRegister
  | 0x03 => some .pushRegister
  | 0x07 => some .jmpReg
  | 0x08 => some .jmpImm
  | 0x0F => some .signal
  | 0x10 => some .addStack
  | 0x11 => some .addRegister
  | _ => none

/-- The opcode of an instruction (R73). -/
def Instr.opcode : Instr → OpCode
  | .nop => .nop
  | .push _ => .push
  | .popRegister _ => .popRegister
  | .pushRegister _ => .pushRegister
  | .jmpReg _ => .jmpReg
  | .jmpImm => .jmpImm
  | .signal _ => .signal
  | .addStack => .addStack
  | .addRegister _ _ => .addRegister

/-! ### Reading an instruction from a word -/

/-- The instruction a word holds: its opcode by the opcode-byte decoder of R77 and its operands by the formats of R72.
The opcode is examined before any register field, r1 before r2 (R76, D7, log 10); payload bits without a field are
ignored (R79, D6, log 9); JmpReg's field is never examined (R140). For the two jump opcodes, which the word decoder of
R76 raises UnknownOp for, this gives the instruction, and its meaning raises that error (log 26). -/
def decode (w : Word) : Except EngineError Instr :=
  match OpCode.ofByte (opcodeField w) with
  | none => .error (.unknownOp (opcodeField w))
  | some .nop => .ok .nop
  | some .push => .ok (.push (immField w))
  | some .popRegister =>
    match Reg.ofField (regField w) with
    | .error e => .error e
    | .ok r => .ok (.popRegister r)
  | some .pushRegister =>
    match Reg.ofField (regField w) with
    | .error e => .error e
    | .ok r => .ok (.pushRegister r)
  | some .jmpReg => .ok (.jmpReg (regField w))
  | some .jmpImm => .ok .jmpImm
  | some .signal => .ok (.signal (immField w))
  | some .addStack => .ok .addStack
  | some .addRegister =>
    match Reg.ofField (regField w) with
    | .error e => .error e
    | .ok r1 =>
      match Reg.ofField (reg2Field w) with
      | .error e => .error e
      | .ok r2 => .ok (.addRegister r1 r2)

/-- The engine's word decoder of R76: `decode`, with UnknownOp(op) raised for the two opcodes the step does not
execute, "whatever bits 15 to 8 hold" (R140, R141; D5, log 8). -/
def engineDecode (w : Word) : Except EngineError Instr :=
  match decode w with
  | .error e => .error e
  | .ok i => if i.executed then .ok i else .error (.unknownOp (opcodeField w))

/-- The decoder on bytes in address order: an instruction is one word, its first byte the opcode (R70); `none` where
there are fewer than two bytes. -/
def decodeBytes : List Byte → Option (Except EngineError Instr × List Byte)
  | lo :: hi :: rest => some (decode (wordOfBytes lo hi), rest)
  | _ => none

/-! ### The encoder (R81) -/

/-- A word from its three fields above the opcode: bits 15 to 12, bits 11 to 8, opcode byte. -/
def wordOfFields (hi lo : BitVec 4) (op : OpCode) : Word := (hi ++ lo) ++ op.byte

/-- `encode(Instruction) -> u16`, which "writes 0 into every unused bit" (R81). -/
def encode : Instr → Word
  | .nop => wordOfFields 0#4 0#4 .nop
  | .push imm => imm ++ OpCode.push.byte
  | .popRegister r => wordOfFields 0#4 r.field .popRegister
  | .pushRegister r => wordOfFields 0#4 r.field .pushRegister
  | .jmpReg f => wordOfFields 0#4 f .jmpReg
  | .jmpImm => wordOfFields 0#4 0#4 .jmpImm
  | .signal id => id ++ OpCode.signal.byte
  | .addStack => wordOfFields 0#4 0#4 .addStack
  | .addRegister r1 r2 => wordOfFields r2.field r1.field .addRegister

/-- The instruction's bytes in the program image, "low-byte-first" (R81, R90). -/
def encodeBytes (i : Instr) : List Byte := [lowByte (encode i), highByte (encode i)]

/-- The bits of a word that carry the opcode or a field, by format (R72); the others are ignored (R79). -/
def usedBits : OpCode → Word
  | .nop => 0x00FF#16
  | .push => 0xFFFF#16
  | .popRegister => 0x0FFF#16
  | .pushRegister => 0x0FFF#16
  | .jmpReg => 0x0FFF#16
  | .jmpImm => 0x00FF#16
  | .signal => 0xFFFF#16
  | .addStack => 0x00FF#16
  | .addRegister => 0xFFFF#16

/-! ### The host's question about a row of the opcode table -/

/-- The two bytes, in address order, of the instruction whose bits are the low `nbits` of `w`, numbered as the opcode
table numbers them: the first byte is bits 7 to 0. -/
def tableBytes (nbits w : Nat) : List Byte :=
  [BitVec.ofNat 8 (w % 2 ^ nbits), BitVec.ofNat 8 (w % 2 ^ nbits / 256)]

/-- What the decoder reads from the instruction whose bits are `w`; `none` where it refuses. -/
def decodeTableWord (nbits w : Nat) : Option Instr :=
  match decodeBytes (tableBytes nbits w) with
  | some (.ok i, _) => some i
  | _ => none

end Sys2Proof
end

