-- ==== Sys2Proof/Machine/State.lean ====
section
/-! DEFINITION. The machine's state as plain data (10_state.md), the reasons a step can stop, and reset
(70_reset_and_hazards.md R220). -/

namespace Sys2Proof.Machine

/-- The run state of the control unit (40_control_unit.md R100). -/
inductive RunState where
  /-- Steps are issued. -/
  | running
  /-- Final: the halt flag was true before a step (R100, R225). -/
  | halted
  /-- Final: a step returned `Err(e)` (R100, R182). -/
  | faulted (e : EngineError)
  deriving DecidableEq, Repr, Inhabited

/-- Why the machine answers a fault. -/
inductive Fault where
  /-- Raised by `step` alone, of a machine whose run state is already FAULTED(e): "HALTED and FAULTED(E) are final:
  the control unit issues no further step" (40_control_unit.md R100). The step that raised `e` was a next state, which
  holds what the error left (60_exceptions.md R183). Safe (log 2). -/
  | faulted (e : EngineError)
  deriving DecidableEq, Repr

/-- Why the model gives no meaning. -/
inductive Refusal where
  /-- Raised by an arm of `exec` whose instruction has no meaning yet; no arm is left that raises it. Safe. -/
  | notModelled (mnemonic : String)
  /-- Raised by `launch`: "a launch whose image does not fit is refused" (70_reset_and_hazards.md R222, D9).
  Safe (log 12). -/
  | imageDoesNotFit
  /-- Raised by `launch`: MEM_SIZE outside its legal range 2 to 65536 (00_scope.md R5). Safe (log 3). -/
  | memSizeOutOfRange
  deriving DecidableEq, Repr

/-- The whole machine state (10_state.md, opening sentence), and the model's own counter of free values. -/
structure State where
  /-- The register file (R20); Sp and Pc are registers like the others (R22). -/
  regs : Regs
  /-- The halt flag (R31). -/
  halt : Bool
  /-- The signal handler table H (R32). -/
  handlers : HandlerTable
  /-- The one memory instance with its capacity (R33, 20_memory.md R45). -/
  mem : Memory
  /-- The run state of the control unit (40_control_unit.md R100). -/
  run : RunState
  /-- The MODEL'S own: how many free values have been used (log 22). -/
  freeIndex : Nat
  deriving DecidableEq, Repr, Inhabited

/-- "register file (zeroed)" (R24). -/
def Regs.zero : Regs :=
  { a := 0#16, b := 0#16, c := 0#16, m := 0#16, sp := 0#16, pc := 0#16, bp := 0#16, flags := 0#16 }

/-- What an unlisted byte of memory reads as: "freshly allocated zeroed memory" (20_memory.md R63). -/
def Memory.unlisted : Byte := 0x00#8

/-- A new memory of a given capacity, every byte 0 (R63, R45). -/
def Memory.fresh (size : Nat) : Memory := { size := size, cells := [] }

/-- The canonical form of memory: addresses strictly rising, no listed byte equal to an unlisted one, every listed
address in bounds (log 27). -/
abbrev Memory.wf (m : Memory) : Prop :=
  m.cells.Pairwise (fun c d => c.1 < d.1) ∧ ∀ c ∈ m.cells, c.2 ≠ Memory.unlisted ∧ c.1 < m.size

/-- MEM_SIZE is in its legal range (00_scope.md R5). -/
abbrev Memory.sizeLegal (m : Memory) : Prop := Config.minMemSize ≤ m.size ∧ m.size ≤ Config.maxMemSize

/-- The canonical form of the handler table: ids strictly rising, so "at most one handler" for an id (R32). -/
abbrev HandlerTable.wf (t : HandlerTable) : Prop := t.Pairwise (fun c d => c.1.toNat < d.1.toNat)

/-- The machine right after reset with a capacity of `size` bytes (70_reset_and_hazards.md R220; log 3). -/
def State.resetWith (size : Nat) : State :=
  { regs := Regs.zero, halt := false, handlers := [], mem := Memory.fresh size, run := .running, freeIndex := 0 }

/-- The machine right after reset, MEM_SIZE at its default (R220, 00_scope.md R5). -/
def State.reset : State := State.resetWith Config.defaultMemSize

/-- What a handler is handed (10_state.md R39). -/
def State.view (s : State) : MachineView :=
  { regs := s.regs, halt := s.halt, handlers := s.handlers, mem := s.mem }

end Sys2Proof.Machine
end

