-- ==== Sys2Proof/Machine/Flags.lean ====
section
/-! DEFINITION. The ALU (40_control_unit.md R109, R110). There are no condition codes: no instruction computes a flag,
the carry of an addition "is discarded and recorded nowhere" (R109, 10_state.md R29). -/

namespace Sys2Proof.Machine

/-- `add16(a, b) = (a + b) mod 2^16`: the exact sum, narrowed (R109; D1, log 5). -/
def add16 (a b : Word) : Word := BitVec.ofNat 16 (a.toNat + b.toNat)

/-- `(a + 2) mod 2^16`, the fixed incrementer of Pc and Sp (R103, R107, R110; D2, D3, log 6). -/
def addTwo (a : Word) : Word := a + 2#16

/-- `(a - 2) mod 2^16`, the fixed decrementer of Sp (R108, R110; D2, log 6): 0 and 1 go to 0xFFFE and
0xFFFF. -/
def subTwo (a : Word) : Word := a - 2#16

end Sys2Proof.Machine
end

