-- ==== Sys2Proof/Machine/Operands.lean ====
section
/-! DEFINITION. Operand forms: the registers (10_state.md R21 to R23) and the immediate (30_encoding.md R75). -/

namespace Sys2Proof.Machine

/-- `x[r]` (00_scope.md R8): every register is general, none reads as a constant (10_state.md R22). -/
def Regs.get (x : Regs) : Reg → Word
  | .a => x.a
  | .b => x.b
  | .c => x.c
  | .m => x.m
  | .sp => x.sp
  | .pc => x.pc
  | .bp => x.bp
  | .flags => x.flags

/-- `x[r] <- v` (R8): none is read-only (R22). -/
def Regs.set (x : Regs) (r : Reg) (v : Word) : Regs :=
  match r with
  | .a => { x with a := v }
  | .b => { x with b := v }
  | .c => { x with c := v }
  | .m => { x with m := v }
  | .sp => { x with sp := v }
  | .pc => { x with pc := v }
  | .bp => { x with bp := v }
  | .flags => { x with flags := v }

/-- `getRegister(id)` of the register port (10_state.md R36), and the read of a register operand. -/
def State.getReg (s : State) (r : Reg) : Word := s.regs.get r

/-- `setRegister(id, v)` of the register port, "no other side effects" (R36), and the write of a register operand. -/
def State.setReg (s : State) (r : Reg) (v : Word) : State := { s with regs := s.regs.set r v }

/-- `zext_16(imm8)`: zeros in bits 15 to 8 (00_scope.md R7, 30_encoding.md R75). -/
def zext16 (imm : Byte) : Word := imm.setWidth 16

end Sys2Proof.Machine
end

