-- ==== Sys2Proof/Machine/Ops.lean ====
section
/-! DEFINITION. The named operations over memory, the handler table, the stack and errors that the instructions and
the step are written with. -/

namespace Sys2Proof

/-! ### Error codes -/

/-- The error's code, 60_exceptions.md R180 (D8, log 11: the spec's own numbers). -/
def EngineError.code : EngineError → Nat
  | .unknownOp _ => 1
  | .unknownReg _ => 2
  | .readFault _ => 3
  | .writeFault _ => 4
  | .pcFault _ => 5
  | .unknownSignal _ => 6
  | .unknownFile => 7

/-- The error's diagnostic value, R180 (D8, log 11); UnknownFile has none. -/
def EngineError.info : EngineError → Option Nat
  | .unknownOp op => some op.toNat
  | .unknownReg f => some f.toNat
  | .readFault a => some a.toNat
  | .writeFault a => some a.toNat
  | .pcFault a => some a.toNat
  | .unknownSignal id => some id.toNat
  | .unknownFile => none

end Sys2Proof

namespace Sys2Proof.Machine

/-! ### The memory array (20_memory.md) -/

/-- The byte a list of cells gives at an address. -/
def cellAt (a : Nat) : List Host.Cell → Byte
  | [] => Memory.unlisted
  | (b, v) :: rest => if a = b then v else cellAt a rest

/-- Put a cell before the first cell of a greater address. -/
def insertCell (a : Nat) (v : Byte) : List Host.Cell → List Host.Cell
  | [] => [(a, v)]
  | (b, w) :: rest => if a < b then (a, v) :: (b, w) :: rest else (b, w) :: insertCell a v rest

/-- Give an address a byte: no cell where the byte is what an unlisted address reads as. -/
def setCell (a : Nat) (v : Byte) (cells : List Host.Cell) : List Host.Cell :=
  let others := cells.filter fun c => c.1 != a
  if v = Memory.unlisted then others else insertCell a v others

/-- `in_bounds(a) = (a < MEM_SIZE)`, `a` not reduced modulo 2^16 (R46). -/
abbrev Memory.inBounds (m : Memory) (a : Nat) : Prop := a < m.size

/-- `mem[a]` for an address in bounds. -/
def Memory.get (m : Memory) (a : Nat) : Byte := cellAt a m.cells

/-- `mem[a] <- v` for an address in bounds. -/
def Memory.set (m : Memory) (a : Nat) (v : Byte) : Memory := { m with cells := setCell a v m.cells }

/-- `readByte(addr)`, `MemRead(addr, 1)` (R47). -/
def Memory.readByte (m : Memory) (a : Nat) : Option Byte := if m.inBounds a then some (m.get a) else none

/-- `writeByte(addr, val)`, `MemWrite(addr, 1, val)` (R48); `none` is FAIL, memory unchanged. -/
def Memory.writeByte (m : Memory) (a : Nat) (v : Byte) : Option Memory :=
  if m.inBounds a then some (m.set a v) else none

/-- `readWord(addr)`, `MemRead(addr, 2)`: little-endian, the second address not wrapped (R49, R51; D4, log 7), no
alignment (R53; D10, log 13). -/
def Memory.readWord (m : Memory) (a : Nat) : Option Word :=
  if m.inBounds a ∧ m.inBounds (a + 1) then some (wordOfBytes (m.get a) (m.get (a + 1))) else none

/-- `writeWord(addr, val)`, `MemWrite(addr, 2, val)`: all-or-nothing (R50, R51). -/
def Memory.writeWord (m : Memory) (a : Nat) (v : Word) : Option Memory :=
  if m.inBounds a ∧ m.inBounds (a + 1) then some ((m.set a (lowByte v)).set (a + 1) (highByte v)) else none

/-- The bytes of a list stored from an address on. -/
def Memory.setAll (m : Memory) (bytes : List Byte) (offset : Nat) : Memory :=
  match bytes with
  | [] => m
  | v :: rest => (m.set offset v).setAll rest (offset + 1)

/-- `bulkLoad(bytes, offset)`: bounds-checked, all-or-nothing (R58; D9, log 12). The empty sequence at an offset above
MEM_SIZE fails, by R58's pseudocode and against its prose (DESIGN CHOICE, log 31). -/
def Memory.bulkLoad (m : Memory) (bytes : List Byte) (offset : Nat) : Option Memory :=
  if offset + bytes.length ≤ m.size then some (m.setAll bytes offset) else none

/-- Every byte write of a list that is in bounds, in order; the others fail and change nothing (R48). -/
def Memory.writeEach (m : Memory) : List Host.Cell → Memory
  | [] => m
  | (a, v) :: rest => ((m.writeByte a v).getD m).writeEach rest

/-! ### The handler table (10_state.md R32) -/

/-- Put an entry before the first entry of a greater id. -/
def insertEntry (id : Byte) (h : Handler) : HandlerTable → HandlerTable
  | [] => [(id, h)]
  | (j, g) :: rest =>
    if id.toNat < j.toNat then (id, h) :: (j, g) :: rest else (j, g) :: insertEntry id h rest

/-- `defineHandler(signalId, handler)`: "last registration for a given id wins". -/
def HandlerTable.define (t : HandlerTable) (id : Byte) (h : Handler) : HandlerTable :=
  insertEntry id h (t.filter fun c => c.1 != id)

/-- `H[id]`, a handler or `NONE` (00_scope.md R12). -/
def HandlerTable.find (t : HandlerTable) (id : Byte) : Option Handler :=
  match t with
  | [] => none
  | (j, h) :: rest => if id = j then some h else HandlerTable.find rest id

/-- The table with the given entries, registered in order. -/
def HandlerTable.ofEntries (entries : List (Byte × Handler)) : HandlerTable :=
  entries.foldl (fun t c => HandlerTable.define t c.1 c.2) []

/-! ### Results and errors -/

/-- What a step, an instruction or a handler returns (00_scope.md R10, 10_state.md R35): `Ok` or `Err(E)`, and the
machine as it then is. There is "No state rollback on failure". -/
inductive Result where
  | ok (s : State)
  | err (e : EngineError) (s : State)
  deriving DecidableEq, Repr, Inhabited

/-- The machine as a result leaves it. -/
def Result.state : Result → State
  | .ok s => s
  | .err _ s => s

/-- The error of a result. -/
def Result.error : Result → Option EngineError
  | .ok _ => none
  | .err e _ => some e

/-- TAKING AN ERROR (60_exceptions.md R182, 40_control_unit.md R100): it is not vectored, "nothing is saved and
nothing changes mode"; the control unit enters FAULTED(E), and everything the step did until then stays (R106). -/
def State.takeError (s : State) (e : EngineError) : State := { s with run := .faulted e }

/-- The control unit's reaction to a step's result (R100): `Ok` goes on, `Err(E)` enters FAULTED(E) (log 2). -/
def Result.conclude : Result → Host.Outcome State Fault Refusal
  | .ok s => .next s
  | .err e s => .next (s.takeError e)

/-! ### FETCH and ADVANCE (40_control_unit.md R102, R103) -/

/-- `MemRead(x[Pc], 2)` (R102). -/
def State.fetch (s : State) : Option Word := s.mem.readWord (s.getReg .pc).toNat

/-- `x[Pc] <- (x[Pc] + 2) mod 2^16` (R103, 10_state.md R26). -/
def State.advance (s : State) : State := s.setReg .pc (addTwo (s.getReg .pc))

/-! ### The stack (40_control_unit.md R107, R108) -/

/-- The address `Push` writes at: Sp, "the address of the next free word" (10_state.md R28). -/
def State.pushAddr (s : State) : Word := s.getReg .sp

/-- The candidate address of `Pop`: `(x[Sp] - 2) mod 2^16` (R108; D2, log 6). -/
def State.popAddr (s : State) : Word := subTwo (s.getReg .sp)

/-- `Push(v)` (R107): where it fails, Sp and memory are unchanged. -/
def State.push (s : State) (v : Word) : Except EngineError State :=
  match s.mem.writeWord s.pushAddr.toNat v with
  | none => .error (.writeFault s.pushAddr)
  | some m => .ok ({ s with mem := m }.setReg .sp (addTwo s.pushAddr))

/-- `Pop()` (R108): where it fails, Sp is unchanged; the memory it reads never changes. -/
def State.pop (s : State) : Except EngineError (Word × State) :=
  match s.mem.readWord s.popAddr.toNat with
  | none => .error (.readFault s.popAddr)
  | some v => .ok (v, s.setReg .sp s.popAddr)

/-! ### The signal trap (60_exceptions.md R187, R188) -/

/-- The handler a signal id selects: the table is read once, at the trap (44_signal.md R153). -/
def State.trapHandler (s : State) (id : Byte) : Option Handler := HandlerTable.find s.handlers id

/-- THE TRAP, its entry and its return. Entry (R187): the handler is looked up; nothing is saved, no mode, mask, stack
or vector changes: "Pc already holds the address after the Signal word, which serves as the return address", and the
handler is handed the machine as it is. Return (R188, R181): the step ends with the handler's result, an error
unchanged, on the machine as the handler left it. Without a handler: UnknownSignal(id) (44_signal.md R150). -/
def State.signalTrap (s : State) (id : Byte) (invoke : Handler → State → Result) : Result :=
  match s.trapHandler id with
  | none => .err (.unknownSignal id) s
  | some h => invoke h s

end Sys2Proof.Machine
end

