-- ==== Sys2Proof/Machine/Stack.lean ====
section
/-! DEFINITION. Push, PopRegister, PushRegister (42_stack.md). -/

namespace Sys2Proof.Machine

/-- A `Push(v)` that ends an instruction (R107): its WriteFault is the instruction's (00_scope.md R11). -/
def State.pushResult (s : State) (v : Word) : Result :=
  match s.push v with
  | .error e => .err e s
  | .ok t => .ok t

/-- R125: `Push(zext_16(imm8))`. -/
def runPush (imm : Byte) (s : State) : Result := s.pushResult (zext16 imm)

/-- R126: `let v = Pop()`, then `x[r] <- v`, so that `PopRegister Sp` leaves the popped value in Sp. -/
def runPopRegister (r : Reg) (s : State) : Result :=
  match s.pop with
  | .error e => .err e s
  | .ok (v, t) => .ok (t.setReg r v)

/-- R127: `let v = x[r]`, then `Push(v)`, so that `PushRegister Sp` pushes Sp as it was before. -/
def runPushRegister (r : Reg) (s : State) : Result := s.pushResult (s.getReg r)

/-- The EXECUTE phase of Push (R125). -/
def execPush (imm : Byte) (s : State) : Host.Outcome State Fault Refusal := (runPush imm s).conclude

/-- The EXECUTE phase of PopRegister (R126). -/
def execPopRegister (r : Reg) (s : State) : Host.Outcome State Fault Refusal := (runPopRegister r s).conclude

/-- The EXECUTE phase of PushRegister (R127). -/
def execPushRegister (r : Reg) (s : State) : Host.Outcome State Fault Refusal := (runPushRegister r s).conclude

end Sys2Proof.Machine
end

