-- ==== Sys2Proof/Machine/Arith.lean ====
section
/-! DEFINITION. AddStack and AddRegister (45_arith.md). -/

namespace Sys2Proof.Machine

/-- R160: `let a = Pop()`, `let b = Pop()`, `Push(add16(a, b))`. An error of the second Pop leaves Sp as the first Pop
left it ("partial progress ... is retained", 60_exceptions.md R183). -/
def runAddStack (s : State) : Result :=
  match s.pop with
  | .error e => .err e s
  | .ok (a, s1) =>
    match s1.pop with
    | .error e => .err e s1
    | .ok (b, s2) => s2.pushResult (add16 a b)

/-- R161: `x[r1] <- add16(x[r1], x[r2])`. -/
def runAddRegister (r1 r2 : Reg) (s : State) : Result := .ok (s.setReg r1 (add16 (s.getReg r1) (s.getReg r2)))

/-- The EXECUTE phase of AddStack (R160). -/
def execAddStack (s : State) : Host.Outcome State Fault Refusal := (runAddStack s).conclude

/-- The EXECUTE phase of AddRegister (R161). -/
def execAddRegister (r1 r2 : Reg) (s : State) : Host.Outcome State Fault Refusal := (runAddRegister r1 r2 s).conclude

end Sys2Proof.Machine
end

