-- ==== Sys2Proof/Machine/Handlers.lean ====
section
/-! DEFINITION. What a signal handler does to the machine (44_signal.md R151 to R153): its port operations in order,
a step it calls, and, for a host function the model does not know, a free value. -/

namespace Sys2Proof.Machine

/-- The machine and result a free value stands for (R151, D14, log 22): registers, halt flag and handler table are
the outcome's, memory gets its writes through the memory port (R64), capacity and run state stay. One free value is
used up. -/
def HandlerOutcome.apply (o : HandlerOutcome) (s : State) : Result :=
  let t : State :=
    { s with
      regs := o.regs
      halt := o.halt
      handlers := HandlerTable.ofEntries o.handlers
      mem := s.mem.writeEach o.writes
      freeIndex := s.freeIndex + 1 }
  match o.result with
  | none => .ok t
  | some e => .err e t

/-- The address a handler's memory access goes to: `getRegister` where a register holds it (10_state.md R36). -/
def State.handlerAddr (s : State) (p : HandlerAddr) : Nat :=
  match p with
  | .fixed a => a
  | .inReg r => (s.getReg r).toNat

/-- The machine with the memory a handler's write left (R48, R50). -/
def State.withMem (s : State) (m : Memory) : State := { s with mem := m }

/-- The machine after `defineHandler(id, h)` (10_state.md R32). -/
def State.defineHandler (s : State) (id : Byte) (h : Handler) : State :=
  { s with handlers := HandlerTable.define s.handlers id h }

/-- Run a handler on the machine it is handed. The result of each memory access goes to the handler, a failed one
changes nothing (20_memory.md R47 to R50, R64). `nested` is the `step()` it may call (R152): a nested step's result goes
to the handler, which decides what it returns (60_exceptions.md R189); `last` is the latest one's error. -/
def runHandler (nested : State → Result) (h : Handler) (last : Option EngineError) (s : State) : Result :=
  match h with
  | .returnOk => .ok s
  | .returnErr e => .err e s
  | .returnStepResult =>
    match last with
    | none => .ok s
    | some e => .err e s
  | .setRegister r v next => runHandler nested next last (s.setReg r v)
  | .copyRegister dst src next => runHandler nested next last (s.setReg dst (s.getReg src))
  | .ifRegister r v yes no =>
    if s.getReg r = v then runHandler nested yes last s else runHandler nested no last s
  | .ifHalt yes no => if s.halt then runHandler nested yes last s else runHandler nested no last s
  | .loadByte r p onOk onFail =>
    match s.mem.readByte (s.handlerAddr p) with
    | none => runHandler nested onFail last s
    | some v => runHandler nested onOk last (s.setReg r (zext16 v))
  | .loadWord r p onOk onFail =>
    match s.mem.readWord (s.handlerAddr p) with
    | none => runHandler nested onFail last s
    | some v => runHandler nested onOk last (s.setReg r v)
  | .writeByte p v onOk onFail =>
    match s.mem.writeByte (s.handlerAddr p) v with
    | none => runHandler nested onFail last s
    | some m => runHandler nested onOk last (s.withMem m)
  | .writeWord p v onOk onFail =>
    match s.mem.writeWord (s.handlerAddr p) v with
    | none => runHandler nested onFail last s
    | some m => runHandler nested onOk last (s.withMem m)
  | .storeByte p src onOk onFail =>
    match s.mem.writeByte (s.handlerAddr p) (lowByte (s.getReg src)) with
    | none => runHandler nested onFail last s
    | some m => runHandler nested onOk last (s.withMem m)
  | .storeWord p src onOk onFail =>
    match s.mem.writeWord (s.handlerAddr p) (s.getReg src) with
    | none => runHandler nested onFail last s
    | some m => runHandler nested onOk last (s.withMem m)
  | .setHalt v next => runHandler nested next last { s with halt := v }
  | .defineHandler id g next => runHandler nested next last (s.defineHandler id g)
  | .step onOk onErr =>
    match nested s with
    | .ok t => runHandler nested onOk none t
    | .err e t => runHandler nested onErr (some e) t
  | .unknown key => (Config.unknownHandler key s.freeIndex s.view).apply s

/-- The reference host's halt handler: "sets the halt flag to true and returns `Ok`, changing nothing else"
(70_reset_and_hazards.md R224; D25, log 19). -/
def haltHandler : Handler := .setHalt true .returnOk

end Sys2Proof.Machine
end

