-- ==== Sys2Proof/Machine/Jump.lean ====
section
/-! DEFINITION. The two jump opcodes (43_jump.md), "encodable but not executed": each raises UnknownOp with its opcode
byte, Pc staying advanced and nothing else changing (D5, log 8, log 26). -/

namespace Sys2Proof.Machine

/-- R140: `raise UnknownOp(0x07)`, "whatever bits 15 to 8 hold": the field is never examined. -/
def runJmpReg (_field : BitVec 4) (s : State) : Result := .err (.unknownOp OpCode.jmpReg.byte) s

/-- R141: `raise UnknownOp(0x08)`. -/
def runJmpImm (s : State) : Result := .err (.unknownOp OpCode.jmpImm.byte) s

/-- What a step does with JmpReg after the Pc advance (R140). -/
def execJmpReg (field : BitVec 4) (s : State) : Host.Outcome State Fault Refusal := (runJmpReg field s).conclude

/-- What a step does with JmpImm after the Pc advance (R141). -/
def execJmpImm (s : State) : Host.Outcome State Fault Refusal := (runJmpImm s).conclude

end Sys2Proof.Machine
end

