-- ==== Sys2Proof/Machine/Nop.lean ====
section
/-! DEFINITION. Nop (41_nop.md). -/

namespace Sys2Proof.Machine

/-- R120: "Nop: no effect". -/
def runNop (s : State) : Result := .ok s

/-- The EXECUTE phase of Nop (R120). -/
def execNop (s : State) : Host.Outcome State Fault Refusal := (runNop s).conclude

end Sys2Proof.Machine
end

