-- ==== Sys2Proof/Machine/Signal.lean ====
section
/-! DEFINITION. Signal (44_signal.md), with the steps a handler may run inside it (R152). -/

namespace Sys2Proof.Machine

/-- The EXECUTE phase of an instruction, `signal` being what Signal does (40_control_unit.md R105). -/
def runInstr (signal : Byte → State → Result) (i : Instr) (s : State) : Result :=
  match i with
  | .nop => runNop s
  | .push imm => runPush imm s
  | .popRegister r => runPopRegister r s
  | .pushRegister r => runPushRegister r s
  | .jmpReg field => runJmpReg field s
  | .jmpImm => runJmpImm s
  | .signal id => signal id s
  | .addStack => runAddStack s
  | .addRegister r1 r2 => runAddRegister r1 r2 s

/-- One step, `step() -> Result<(),Error>` (R101): FETCH, ADVANCE, DECODE, EXECUTE, in this order; a phase that raises
an error ends it. It reads neither the halt flag (R111) nor the run state. -/
def fourPhases (signal : Byte → State → Result) (s : State) : Result :=
  match s.fetch with
  | none => .err (.pcFault (s.getReg .pc)) s
  | some w =>
    match decode w with
    | .error e => .err e s.advance
    | .ok i => runInstr signal i s.advance

/-- The `step()` a handler calls, with `depth` further levels of nesting left (R152, 60_exceptions.md R189: "with no
guard"). Nothing bounds the nesting in the spec; below the last level the model follows, a step ends in a free value
(log 23). -/
def nestedStep : (depth : Nat) → State → Result
  | 0, s => (Config.deepNestedStep s.freeIndex s.view).apply s
  | depth + 1, s =>
    fourPhases (fun id t => t.signalTrap id fun h => runHandler (nestedStep depth) h none) s

/-- R150: "look up id in handler table; missing → UnknownSignal; found → invoke handler with exclusive access to the
whole machine, propagate its result". -/
def runSignal (id : Byte) (s : State) : Result :=
  s.signalTrap id fun h => runHandler (nestedStep Config.nestingLimit) h none

/-- The EXECUTE phase of Signal (R150). -/
def execSignal (id : Byte) (s : State) : Host.Outcome State Fault Refusal := (runSignal id s).conclude

end Sys2Proof.Machine
end

