-- ==== Sys2Proof/Machine/Dispatch.lean ====
section
/-! DEFINITION. The EXECUTE phase of every instruction (40_control_unit.md R105), Pc already advanced. -/

namespace Sys2Proof.Machine

def exec (i : Instr) (s : State) : Host.Outcome State Fault Refusal :=
  match i with
  | .nop => Sys2Proof.Machine.execNop s
  | .push imm => Sys2Proof.Machine.execPush imm s
  | .popRegister r => Sys2Proof.Machine.execPopRegister r s
  | .pushRegister r => Sys2Proof.Machine.execPushRegister r s
  | .jmpReg field => Sys2Proof.Machine.execJmpReg field s
  | .jmpImm => Sys2Proof.Machine.execJmpImm s
  | .signal id => Sys2Proof.Machine.execSignal id s
  | .addStack => Sys2Proof.Machine.execAddStack s
  | .addRegister r1 r2 => Sys2Proof.Machine.execAddRegister r1 r2 s

end Sys2Proof.Machine
end

