-- ==== Sys2Proof/Machine/Ports.lean ====
section
/-! DEFINITION. The CORE's interfaces to its host (10_state.md R35 to R39) and the launch of a machine
(70_reset_and_hazards.md R222 to R224). The register port is `State.getReg` and `State.setReg`, the handler port
`State.defineHandler`, the memory port the operations of `Memory`, the halt read the field `halt`; the port gives the
host no write of the halt flag (R31; D18, log 17). -/

namespace Sys2Proof.Machine

/-- The step port: "the host requests one step and receives `Ok` or `Err(E)`" (R35). It runs whatever the run state and
the halt flag are (R111), so it is also the host's retry after an error (40_control_unit.md R106, 60_exceptions.md
R184) and its resuming after a halt (R196). -/
def stepPort (s : State) : Result := fourPhases runSignal s

/-- What a launch is given: 00_scope.md R5, MEM_SIZE, the program image, HANDLERS, SP_INIT. -/
structure Launch where
  memSize : Nat := Config.defaultMemSize
  image : List Byte
  handlers : List (Byte × Handler) := []
  spInit : Word := 0#16
  deriving DecidableEq, Repr

/-- A launch up to the run loop (R222): reset, `bulkLoad(image, 0)`, `defineHandler` for every entry, `setRegister(Sp,
SP_INIT)`. An image that does not fit is refused (D9, log 12), and so is an illegal MEM_SIZE (R5, log 3). -/
def launch (l : Launch) : Host.Outcome State Fault Refusal :=
  if Config.minMemSize ≤ l.memSize ∧ l.memSize ≤ Config.maxMemSize then
    match (Memory.fresh l.memSize).bulkLoad l.image 0 with
    | none => .refused .imageDoesNotFit
    | some m =>
      .next ({ State.resetWith l.memSize with
        mem := m, handlers := HandlerTable.ofEntries l.handlers }.setReg .sp l.spInit)
  else .refused .memSizeOutOfRange

/-- The reference host's launch of an image: a halt handler on signal 0xF0, Sp left at its reset value (R223, R224). -/
def referenceLaunch (image : List Byte) : Launch :=
  { image := image, handlers := [(Config.haltSignal, haltHandler)] }

end Sys2Proof.Machine
end

