-- ==== Sys2Proof/Machine/Step.lean ====
section
/-! DEFINITION. The step of the whole machine: one round of the control unit's run loop (40_control_unit.md R100). -/

namespace Sys2Proof.Machine

/-- The four phases with their reaction in the run loop (R101, R100): an error of FETCH or DECODE enters FAULTED(E),
at DECODE with Pc advanced (R104); else the decoded instruction is executed (R105). -/
def issueStep (s : State) : Host.Outcome State Fault Refusal :=
  match s.fetch with
  | none => .next (s.takeError (.pcFault (s.getReg .pc)))
  | some w =>
    match decode w with
    | .error e => .next (s.advance.takeError e)
    | .ok i => exec i s.advance

/-- One round of the run loop (R100; log 1): in RUNNING, "halt checked before every step", then one step; HALTED and
FAULTED(E) "are final: the control unit issues no further step" (D13, D19, log 16). -/
def step (s : State) : Host.Outcome State Fault Refusal :=
  match s.run with
  | .halted => .next s
  | .faulted e => .fault (.faulted e)
  | .running => if s.halt then .next { s with run := .halted } else issueStep s

/-- The machine with an instruction word of the opcode table stored at Pc, where the next step fetches, and the control
unit ready to issue that step: RUNNING, halt flag false (log 4). Where the word does not fit at Pc, memory stays. -/
def State.withFetchWord (s : State) (nbits w : Nat) : State :=
  { s with
    mem := (s.mem.bulkLoad (tableBytes nbits w) (s.getReg .pc).toNat).getD s.mem
    run := .running
    halt := false }

end Sys2Proof.Machine
end

