-- ==== Sys2Proof/Machine/Assembler.lean ====
section
/-! DEFINITION. The toolchain syntax (30_encoding.md R84 to R91): the text a program is written in, and how it becomes
an image. The assembler is software around the CORE (00_scope.md R4); no step of the machine uses this file. -/

namespace Sys2Proof

/-- The mnemonic of an opcode, spelled as its name (R85; D22, log 28). -/
def OpCode.mnemonic : OpCode → List Char
  | .nop => "Nop".toList
  | .push => "Push".toList
  | .popRegister => "PopRegister".toList
  | .pushRegister => "PushRegister".toList
  | .jmpReg => "JmpReg".toList
  | .jmpImm => "JmpImm".toList
  | .signal => "Signal".toList
  | .addStack => "AddStack".toList
  | .addRegister => "AddRegister".toList

/-- The nine opcodes of R73. -/
def OpCode.all : List OpCode :=
  [.nop, .push, .popRegister, .pushRegister, .jmpReg, .jmpImm, .signal, .addStack, .addRegister]

/-- `fromMnemonic(text) -> Option<OpCode>`, "exact, case-sensitive match" (R85). -/
def OpCode.fromMnemonic (text : List Char) : Option OpCode := OpCode.all.find? fun o => o.mnemonic == text

/-- The number of operand tokens an opcode expects (R86, whose count includes the mnemonic; D24, log 28). -/
def OpCode.arity : OpCode → Nat
  | .nop => 0
  | .push => 1
  | .popRegister => 1
  | .pushRegister => 1
  | .jmpReg => 1
  | .jmpImm => 0
  | .signal => 1
  | .addStack => 0
  | .addRegister => 2

end Sys2Proof

namespace Sys2Proof.Machine

/-- The assembler's errors (R90). NoArg is "reserved" and never raised; UnknownFile and WriteErr belong to reading and
writing files, which is the host program's. -/
inductive AsmError where
  | parseErr | unknownReg | unknownOpCode | lenErr | noArg | unknownFile | writeErr
  deriving DecidableEq, Repr

/-- The pieces of a text between occurrences of a separator. -/
def splitText (sep : Char) : List Char → List (List Char)
  | [] => [[]]
  | c :: rest =>
    if c = sep then [] :: splitText sep rest
    else match splitText sep rest with
      | [] => [[c]]
      | piece :: others => (c :: piece) :: others

/-- "space-separated, consecutive spaces collapsing (empty tokens dropped)" (R84). -/
def tokens (line : List Char) : List (List Char) := (splitText ' ' line).filter fun t => t != []

/-- The value of a digit, upper or lower case (R87; D23, log 28). -/
def digitValue (c : Char) : Option Nat :=
  let n := c.toNat
  if 48 ≤ n ∧ n ≤ 57 then some (n - 48)
  else if 65 ≤ n ∧ n ≤ 70 then some (n - 55)
  else if 97 ≤ n ∧ n ≤ 102 then some (n - 87)
  else none

/-- The number that digits of a base continue `acc` to. -/
def digitsValue (base : Nat) (acc : Nat) : List Char → Option Nat
  | [] => some acc
  | c :: rest =>
    match digitValue c with
    | none => none
    | some d => if d < base then digitsValue base (acc * base + d) rest else none

/-- Digits of a base, at least one, "parsed as an 8-bit unsigned integer; malformed or out-of-range → ParseErr" (R87). -/
def parseDigits (base : Nat) (digits : List Char) : Except AsmError Byte :=
  match digits with
  | [] => .error .parseErr
  | _ :: _ =>
    match digitsValue base 0 digits with
    | none => .error .parseErr
    | some n => if n < 256 then .ok (BitVec.ofNat 8 n) else .error .parseErr

/-- A numeric operand: "token prefix `$` = hexadecimal, `%` = binary, no prefix = decimal" (R87). -/
def parseNumber (token : List Char) : Except AsmError Byte :=
  match token with
  | '$' :: digits => parseDigits 16 digits
  | '%' :: digits => parseDigits 2 digits
  | digits => parseDigits 10 digits

/-- A register operand: "only the literal token "A" is accepted" (R88). -/
def parseRegister (token : List Char) : Except AsmError Reg :=
  if token = ['A'] then .ok .a else .error .unknownReg

/-- The operands of an opcode, left to right (R89); LenErr where their number is not the opcode's (R86). -/
def parseOperands (o : OpCode) (operands : List (List Char)) : Except AsmError Instr :=
  match o, operands with
  | .nop, [] => .ok .nop
  | .jmpImm, [] => .ok .jmpImm
  | .addStack, [] => .ok .addStack
  | .push, [t] => (parseNumber t).map .push
  | .signal, [t] => (parseNumber t).map .signal
  | .popRegister, [t] => (parseRegister t).map .popRegister
  | .pushRegister, [t] => (parseRegister t).map .pushRegister
  | .jmpReg, [t] => (parseRegister t).map fun r => .jmpReg r.field
  | .addRegister, [t, u] =>
    match parseRegister t with
    | .error e => .error e
    | .ok r1 => (parseRegister u).map fun r2 => .addRegister r1 r2
  | _, _ => .error .lenErr

/-- One line (R84): a comment if its first character is `;`, blank if it has no token, else one instruction; checks in
the order mnemonic, arity, operands (R89; D21, log 28). -/
def parseLine (line : List Char) : Except AsmError (Option Instr) :=
  match line with
  | ';' :: _ => .ok none
  | _ =>
    match tokens line with
    | [] => .ok none
    | mnemonic :: operands =>
      match OpCode.fromMnemonic mnemonic with
      | none => .error .unknownOpCode
      | some o => if operands.length = o.arity then (parseOperands o operands).map some else .error .lenErr

/-- The image of a list of lines: "abort the entire run on the first malformed line; no partial assembly" (R90). -/
def assembleLines : List (List Char) → Except AsmError (List Byte)
  | [] => .ok []
  | line :: rest =>
    match parseLine line with
    | .error e => .error e
    | .ok none => assembleLines rest
    | .ok (some i) => (assembleLines rest).map fun bytes => encodeBytes i ++ bytes

/-- The program image of a source text: lines separated by the newline character (R84), each instruction "appended
low-byte-first" (R90). -/
def assemble (source : List Char) : Except AsmError (List Byte) := assembleLines (splitText '\n' source)

end Sys2Proof.Machine
end

