-- ==== Sys2Proof/Safety.lean ====
section
/-! DEFINITION. What counts as a good state and a safe run, in the terms the statements use. -/

namespace Sys2Proof

/-- The names of the engine's errors without their diagnostic value: "a claim about a program should depend only on
the error's name" (60_exceptions.md R180). -/
inductive ErrorName where
  | unknownOp | unknownReg | readFault | writeFault | pcFault | unknownSignal | unknownFile
  deriving DecidableEq, Repr

/-- The name of an error (R180). -/
def EngineError.name : EngineError → ErrorName
  | .unknownOp _ => .unknownOp
  | .unknownReg _ => .unknownReg
  | .readFault _ => .readFault
  | .writeFault _ => .writeFault
  | .pcFault _ => .pcFault
  | .unknownSignal _ => .unknownSignal
  | .unknownFile => .unknownFile

/-- Whether an instruction is a Signal: the one instruction that may hand the machine to a handler. -/
def Instr.isSignal : Instr → Bool
  | .signal _ => true
  | .nop => false
  | .push _ => false
  | .popRegister _ => false
  | .pushRegister _ => false
  | .jmpReg _ => false
  | .jmpImm => false
  | .addStack => false
  | .addRegister _ _ => false

/-- The registers an instruction writes in EXECUTE, 10_state.md R23 (Pc is advanced before). What a handler writes
under Signal is not in it. -/
def Instr.writes : Instr → List Reg
  | .nop => []
  | .push _ => [.sp]
  | .popRegister r => [.sp, r]
  | .pushRegister _ => [.sp]
  | .jmpReg _ => []
  | .jmpImm => []
  | .signal _ => []
  | .addStack => [.sp]
  | .addRegister r1 _ => [r1]

/-- The errors an instruction may raise in EXECUTE, or at DECODE for the two jump opcodes (60_exceptions.md R180). A
handler run by Signal may return any of the seven (R181). -/
def Instr.mayRaise : Instr → List ErrorName
  | .nop => []
  | .push _ => [.writeFault]
  | .popRegister _ => [.readFault]
  | .pushRegister _ => [.writeFault]
  | .jmpReg _ => [.unknownOp]
  | .jmpImm => [.unknownOp]
  | .signal _ => [.unknownOp, .unknownReg, .readFault, .writeFault, .pcFault, .unknownSignal, .unknownFile]
  | .addStack => [.readFault]
  | .addRegister _ _ => []

/-- Whether a handler calls no step itself (44_signal.md R152), handlers it registers aside. What an unknown handler does
is one free value, its steps included (log 22). -/
def Handler.stepFree : Handler → Bool
  | .returnOk => true
  | .returnErr _ => true
  | .returnStepResult => true
  | .setRegister _ _ next => next.stepFree
  | .copyRegister _ _ next => next.stepFree
  | .ifRegister _ _ yes no => yes.stepFree && no.stepFree
  | .ifHalt yes no => yes.stepFree && no.stepFree
  | .loadByte _ _ onOk onFail => onOk.stepFree && onFail.stepFree
  | .loadWord _ _ onOk onFail => onOk.stepFree && onFail.stepFree
  | .writeByte _ _ onOk onFail => onOk.stepFree && onFail.stepFree
  | .writeWord _ _ onOk onFail => onOk.stepFree && onFail.stepFree
  | .storeByte _ _ onOk onFail => onOk.stepFree && onFail.stepFree
  | .storeWord _ _ onOk onFail => onOk.stepFree && onFail.stepFree
  | .setHalt _ next => next.stepFree
  | .defineHandler _ _ next => next.stepFree
  | .step _ _ => false
  | .unknown _ => true

namespace Machine

/-- The address an instruction stores a word at, if it stores (20_memory.md R54): where `Push` writes, after the two
pops of AddStack (45_arith.md R160). What a handler stores under Signal is not in it. -/
def storeAddr (i : Instr) (s : State) : Option Word :=
  match i with
  | .push _ => some s.pushAddr
  | .pushRegister _ => some s.pushAddr
  | .addStack => some (s.setReg .sp s.popAddr).popAddr
  | .nop => none
  | .popRegister _ => none
  | .jmpReg _ => none
  | .jmpImm => none
  | .signal _ => none
  | .addRegister _ _ => none

/-- The invariant of the machine's data: memory in its canonical form (log 27), MEM_SIZE in its legal range
(00_scope.md R5), at most one handler for an id (10_state.md R32). -/
abbrev State.Inv (s : State) : Prop := s.mem.wf ∧ s.mem.sizeLegal ∧ HandlerTable.wf s.handlers

/-- No error has been raised: the run state is not FAULTED(E) (40_control_unit.md R100). -/
def State.NotFaulted (s : State) : Prop := ∀ e, s.run ≠ .faulted e

/-- The machine is about to issue a step (R100): RUNNING, halt flag false. -/
def State.Ready (s : State) : Prop := s.run = .running ∧ s.halt = false

/-- The word that a step fetches (R102). -/
def State.Fetches (s : State) (w : Word) : Prop := s.mem.readWord (s.getReg .pc).toNat = some w

/-- The halt flag, the handler table, the capacity of memory and the model's counter are the same. -/
def SameControl (s t : State) : Prop :=
  t.halt = s.halt ∧ t.handlers = s.handlers ∧ t.mem.size = s.mem.size ∧ t.freeIndex = s.freeIndex

/-- Every byte of memory reads the same, in bounds and out of bounds. -/
def SameBytes (s t : State) : Prop := ∀ b : Nat, t.mem.readByte b = s.mem.readByte b

/-- Every byte of memory reads the same but the two of the word at `a`. -/
def SameBytesBut (a : Nat) (s t : State) : Prop :=
  ∀ b : Nat, b ≠ a → b ≠ a + 1 → t.mem.readByte b = s.mem.readByte b

/-- Every register not listed holds the same value. -/
def SameRegsBut (changed : List Reg) (s t : State) : Prop := ∀ q, q ∉ changed → t.getReg q = s.getReg q

/-- `k` rounds of the run loop from `s` end in `t`. -/
inductive Reaches : Nat → State → State → Prop where
  | refl (s : State) : Reaches 0 s s
  | step {k : Nat} {s t u : State} (first : Machine.step s = .next t) (rest : Reaches k t u) : Reaches (k + 1) s u

/-- A run of `k` rounds that never faults: each round answers a next state that is not FAULTED(E). -/
def SafeRun : Nat → State → Prop
  | 0, s => s.NotFaulted
  | k + 1, s => s.NotFaulted ∧ ∃ t, Machine.step s = .next t ∧ SafeRun k t

/-- Push the words of a list, in order (42_stack.md R128). -/
def pushAll : List Word → State → Except EngineError State
  | [], s => .ok s
  | v :: rest, s =>
    match s.push v with
    | .error e => .error e
    | .ok t => pushAll rest t

/-- Pop a number of words: the words in the order popped (R128). -/
def popAll : Nat → State → Except EngineError (List Word × State)
  | 0, s => .ok ([], s)
  | n + 1, s =>
    match s.pop with
    | .error e => .error e
    | .ok (v, t) =>
      match popAll n t with
      | .error e => .error e
      | .ok (vs, u) => .ok (v :: vs, u)

end Machine

end Sys2Proof
end

