-- ==== Sys2Proof/Certificates/Slice0/Obligations.lean ====
section
/-! DEFINITION. The statements about the machine, each with the rule of spec/ it formalises. "Decision Dn" is a row of
92_eei_decisions.md: the spec's own choice, not the source's. -/

open Sys2Proof Sys2Proof.Machine

/-! ### Encoding and decoding -/

/-- The worked encodings of 30_encoding.md R82 (which the spec derives from R81), with the bytes they stand for, and
the instructions they decode to. -/
def Obligations.WorkedEncodingsDecode : Prop :=
  (encode (.push 0x05#8) = 0x0501#16 ∧ decode 0x0501#16 = .ok (.push 0x05#8) ∧
    encodeBytes (.push 0x05#8) = [0x01#8, 0x05#8]) ∧
  (encode .addStack = 0x0010#16 ∧ decode 0x0010#16 = .ok .addStack ∧ encodeBytes .addStack = [0x10#8, 0x00#8]) ∧
  (encode (.popRegister .a) = 0x0002#16 ∧ decode 0x0002#16 = .ok (.popRegister .a) ∧
    encodeBytes (.popRegister .a) = [0x02#8, 0x00#8]) ∧
  (encode (.signal 0xF0#8) = 0xF00F#16 ∧ decode 0xF00F#16 = .ok (.signal 0xF0#8) ∧
    encodeBytes (.signal 0xF0#8) = [0x0F#8, 0xF0#8]) ∧
  (encode (.addRegister .b .c) = 0x2111#16 ∧ decode 0x2111#16 = .ok (.addRegister .b .c) ∧
    encodeBytes (.addRegister .b .c) = [0x11#8, 0x21#8]) ∧
  (encode (.pushRegister .pc) = 0x0503#16 ∧ decode 0x0503#16 = .ok (.pushRegister .pc) ∧
    encodeBytes (.pushRegister .pc) = [0x03#8, 0x05#8]) ∧
  (encode .jmpImm = 0x0008#16 ∧ decode 0x0008#16 = .ok .jmpImm ∧ encodeBytes .jmpImm = [0x08#8, 0x00#8])

/-- The round-trip law, R83: of every well-formed instruction the opcode-byte decoder gives the opcode and the fields
give the operands; of every one but JmpReg and JmpImm the word decoder of R76 gives it back. -/
def Obligations.DecodeOfEncodeGivesTheInstruction : Prop :=
  ∀ i : Instr, i.WellFormed →
    OpCode.ofByte (opcodeField (encode i)) = some i.opcode ∧
    decode (encode i) = .ok i ∧
    (i.executed = true → engineDecode (encode i) = .ok i)

/-- The other direction: what decodes to a well-formed instruction is that instruction's encoding, but for the payload
bits without a field (R72), which the encoder writes as 0 (R81) and the decoder ignores (R79, decision D6, log 9). -/
def Obligations.EncodeOfDecodeClearsOnlyUnusedBits : Prop :=
  ∀ (w : Word) (i : Instr), decode w = .ok i → i.WellFormed → encode i = w &&& usedBits i.opcode

/-- Words that differ in unused payload bits alone decode alike, by both decoders (R79, decision D6, log 9). -/
def Obligations.UnusedPayloadBitsAreIgnored : Prop :=
  ∀ (w v : Word) (o : OpCode), OpCode.ofByte (opcodeField w) = some o → w &&& usedBits o = v &&& usedBits o →
    decode w = decode v ∧ engineDecode w = engineDecode v

/-- R78: every opcode byte but the nine of R73 fails decode as UnknownOp, whatever the payload. That it never executes as
a no-op is said of the step that fetches it: it enters FAULTED with that error (R100, R104), which is the model's form of
an error, a next state (DESIGN CHOICE, log 2). -/
def Obligations.UnassignedOpcodeBytesAreUnknownOp : Prop :=
  ∀ w : Word,
    (0x04 ≤ (opcodeField w).toNat ∧ (opcodeField w).toNat ≤ 0x06 ∨
      0x09 ≤ (opcodeField w).toNat ∧ (opcodeField w).toNat ≤ 0x0E ∨ 0x12 ≤ (opcodeField w).toNat) →
    ∃ e : EngineError, e.name = .unknownOp ∧ decode w = .error e ∧ engineDecode w = .error e ∧
      ∀ s : State, s.Ready → s.Fetches w → ∃ t, step s = .next t ∧ t.run = .faulted e

/-- R74: field values 0 to 7 select A, B, C, M, Sp, Pc, Bp, Flags in that order and always succeed, values 8 to 15
always fail decode as UnknownReg, wherever the word decoder examines a field (PopRegister, PushRegister, r1 and r2 of
AddRegister; JmpReg's is never examined, R140). -/
def Obligations.RegisterFieldsSelectInOrderOrFail : Prop :=
  ([0#4, 1#4, 2#4, 3#4, 4#4, 5#4, 6#4, 7#4].map Reg.ofField =
    [Reg.a, Reg.b, Reg.c, Reg.m, Reg.sp, Reg.pc, Reg.bp, Reg.flags].map Except.ok) ∧
  ∀ w : Word,
    ((opcodeField w = 0x02#8 ∨ opcodeField w = 0x03#8) →
      ((regField w).toNat < 8 → ∃ r, Reg.ofField (regField w) = .ok r ∧
        (opcodeField w = 0x02#8 → decode w = .ok (.popRegister r)) ∧
        (opcodeField w = 0x03#8 → decode w = .ok (.pushRegister r))) ∧
      (8 ≤ (regField w).toNat → ∃ e : EngineError, e.name = .unknownReg ∧ decode w = .error e)) ∧
    (opcodeField w = 0x11#8 →
      ((regField w).toNat < 8 ∧ (reg2Field w).toNat < 8 → ∃ r1 r2, Reg.ofField (regField w) = .ok r1 ∧
        Reg.ofField (reg2Field w) = .ok r2 ∧ decode w = .ok (.addRegister r1 r2)) ∧
      (8 ≤ (regField w).toNat ∨ 8 ≤ (reg2Field w).toNat →
        ∃ e : EngineError, e.name = .unknownReg ∧ decode w = .error e))

/-- The order and the diagnostic values of the decode errors: each UnknownReg carries its field (decision D8, log 11),
the one of r1 before the one of r2 (decision D7, log 10); each UnknownOp carries its opcode byte (decision D8), for the
247 unassigned bytes (R78) and for JmpReg and JmpImm (decision D5, log 8). -/
def Obligations.DecodeErrorsReportFirstBadField : Prop :=
  ∀ w : Word,
    ((opcodeField w = 0x02#8 ∨ opcodeField w = 0x03#8) → 8 ≤ (regField w).toNat →
      engineDecode w = .error (.unknownReg (regField w))) ∧
    (opcodeField w = 0x11#8 → 8 ≤ (regField w).toNat → engineDecode w = .error (.unknownReg (regField w))) ∧
    (opcodeField w = 0x11#8 → (regField w).toNat < 8 → 8 ≤ (reg2Field w).toNat →
      engineDecode w = .error (.unknownReg (reg2Field w))) ∧
    (opcodeField w = 0x07#8 → engineDecode w = .error (.unknownOp 0x07#8)) ∧
    (opcodeField w = 0x08#8 → engineDecode w = .error (.unknownOp 0x08#8)) ∧
    ((0x04 ≤ (opcodeField w).toNat ∧ (opcodeField w).toNat ≤ 0x06 ∨
      0x09 ≤ (opcodeField w).toNat ∧ (opcodeField w).toNat ≤ 0x0E ∨ 0x12 ≤ (opcodeField w).toNat) →
      engineDecode w = .error (.unknownOp (opcodeField w)))

/-- Exactly which words the engine decodes without fault: R80 counts them (256 Nop, 256 Push, 128 PopRegister, 128
PushRegister, 256 Signal, 256 AddStack, 64 AddRegister; the spec derives it from R76 and R79). -/
def Obligations.EngineDecodesExactlyTheExecutableWords : Prop :=
  ∀ w : Word, (∃ i, engineDecode w = .ok i) ↔
    opcodeField w = 0x00#8 ∨ opcodeField w = 0x01#8 ∨ opcodeField w = 0x0F#8 ∨ opcodeField w = 0x10#8 ∨
    ((opcodeField w = 0x02#8 ∨ opcodeField w = 0x03#8) ∧ (regField w).toNat < 8) ∨
    (opcodeField w = 0x11#8 ∧ (regField w).toNat < 8 ∧ (reg2Field w).toNat < 8)

/-! ### Memory -/

/-- R49: a word read gives the byte at the address as the low byte and the next one as the high byte, exactly when
both are in bounds. -/
def Obligations.WordReadIsLittleEndianOrFails : Prop :=
  ∀ (m : Memory) (a : Nat),
    (a + 1 < m.size → ∃ lo hi : Byte, m.readByte a = some lo ∧ m.readByte (a + 1) = some hi ∧
      m.readWord a = some (hi ++ lo)) ∧
    (¬ a + 1 < m.size → m.readWord a = none)

/-- R50: a word write puts the low byte at the address and the high byte after it, changes no other byte and not the
capacity, and is all-or-nothing: where either byte is out of bounds it fails. -/
def Obligations.WordWriteIsAllOrNothing : Prop :=
  ∀ (m : Memory) (a : Nat) (v : Word),
    (a + 1 < m.size → ∃ n, m.writeWord a v = some n ∧ n.size = m.size ∧
      n.readByte a = some (v.extractLsb' 0 8) ∧ n.readByte (a + 1) = some (v.extractLsb' 8 8) ∧
      n.readWord a = some v ∧
      ∀ b : Nat, b ≠ a → b ≠ a + 1 → n.readByte b = m.readByte b) ∧
    (¬ a + 1 < m.size → m.writeWord a v = none)

/-- R47 and R48: a byte read in bounds gives the byte, a byte write in bounds stores it and nothing else; out of bounds
both fail. -/
def Obligations.ByteWriteChangesOneByteOrFails : Prop :=
  ∀ (m : Memory) (a : Nat) (v : Byte),
    (a < m.size → (∃ u, m.readByte a = some u) ∧ ∃ n, m.writeByte a v = some n ∧ n.size = m.size ∧
      n.readByte a = some v ∧ ∀ b : Nat, b ≠ a → n.readByte b = m.readByte b) ∧
    (¬ a < m.size → m.readByte a = none ∧ m.writeByte a v = none)

/-- Decision D4 (R51, log 7): the second byte address of a word access at 0xFFFF does not wrap to 0, so with every
legal capacity the access fails. -/
def Obligations.WordAccessAtTopAddressFails : Prop :=
  ∀ (m : Memory) (v : Word), m.sizeLegal → m.readWord 0xFFFF = none ∧ m.writeWord 0xFFFF v = none

/-- R58 (decision D9, log 12): bulkLoad stores every byte of the sequence and no other, or fails where it does not
fit. That the empty sequence fails at an offset above MEM_SIZE is the model's choice (DESIGN CHOICE, log 31): R58's
pseudocode and its prose differ there. -/
def Obligations.BulkLoadIsAllOrNothing : Prop :=
  ∀ (m : Memory) (bytes : List Byte) (offset : Nat),
    (offset + bytes.length ≤ m.size → ∃ n, m.bulkLoad bytes offset = some n ∧ n.size = m.size ∧
      (∀ (i : Nat) (v : Byte), bytes[i]? = some v → n.readByte (offset + i) = some v) ∧
      ∀ b : Nat, (b < offset ∨ offset + bytes.length ≤ b) → n.readByte b = m.readByte b) ∧
    (¬ offset + bytes.length ≤ m.size → m.bulkLoad bytes offset = none)

/-! ### Reset and launch -/

/-- R24 and R63: at reset every register is 0, Pc and Sp among them, and every byte of memory is 0, so that a word
anywhere in memory decodes as Nop. -/
def Obligations.ResetZeroesRegistersAndMemory : Prop :=
  (∀ r, State.reset.getReg r = 0#16) ∧
  (∀ a : Nat, a < 8192 → State.reset.mem.readByte a = some 0x00#8) ∧
  (∀ a : Nat, a + 1 < 8192 → ∃ w, State.reset.mem.readWord a = some w ∧ decode w = .ok .nop)

/-- The rest of reset (70_reset_and_hazards.md R220): halt false, no handler; the run state RUNNING is decision D13
(log 16), the capacity 8192 the default of 00_scope.md R5. -/
def Obligations.ResetControlState : Prop :=
  State.reset.halt = false ∧ (∀ id, HandlerTable.find State.reset.handlers id = none) ∧
  State.reset.run = .running ∧ State.reset.mem.size = 8192

/-- Reset satisfies the invariant of the machine's data (the canonical forms are the model's, log 27). -/
def Obligations.ResetSatisfiesInvariant : Prop := State.reset.Inv

/-- R222: a launch whose image fits succeeds and leaves the image at 0 over zeroed memory, SP_INIT in Sp, every other
register, the halt flag and the run state as at reset, and for every id the last handler registered for it (decisions
D9, D14, D15, D16; log 3, 4, 12). -/
def Obligations.LaunchPlacesImageHandlersAndSp : Prop :=
  ∀ l : Launch, 2 ≤ l.memSize → l.memSize ≤ 65536 → l.image.length ≤ l.memSize →
    ∃ s, launch l = .next s ∧ s.mem.size = l.memSize ∧
      (∀ (i : Nat) (v : Byte), l.image[i]? = some v → s.mem.readByte i = some v) ∧
      (∀ a : Nat, l.image.length ≤ a → a < l.memSize → s.mem.readByte a = some 0x00#8) ∧
      s.getReg .sp = l.spInit ∧ (∀ r, r ≠ .sp → s.getReg r = 0#16) ∧ s.Ready ∧ s.Inv ∧
      ∀ id, HandlerTable.find s.handlers id =
        (l.handlers.reverse.find? fun c => c.1 == id).map fun c => c.2

/-- R222 (decision D9, log 12): "a launch whose image does not fit is refused". -/
def Obligations.LaunchRefusesImageThatDoesNotFit : Prop :=
  ∀ l : Launch, 2 ≤ l.memSize → l.memSize ≤ 65536 → l.memSize < l.image.length →
    launch l = .refused .imageDoesNotFit

/-! ### The run loop and the phases of a step -/

/-- A step runs the decoded instruction: in RUNNING with the halt flag false, when the word at Pc is in bounds and
decodes to `i`, the step is the EXECUTE phase of `i` after Pc has been advanced by 2 modulo 2^16, and nothing else (R101
to R105; the wrap is decision D3, log 6). For JmpReg and JmpImm, which R105 says never reach EXECUTE because R76 raises
UnknownOp at DECODE, that the error is raised by an arm of `exec` is the model's form (DEDUCED, log 26); what such a step
leaves is the statement DecodeFaultLeavesOnlyPcAdvanced. -/
def Obligations.StepRunsTheDecodedInstruction : Prop :=
  ∀ (s : State) (w : Word) (i : Instr), s.Ready → s.Fetches w → decode w = .ok i →
    step s = exec i (s.setReg .pc (s.getReg .pc + 2#16))

/-- R102: where the word at Pc is not in bounds (x[Pc] > MEM_SIZE - 2), and only there, the step raises PcFault of Pc
(the value is decision D8, log 11) and nothing has changed but the run state (log 2). -/
def Obligations.FetchMissRaisesPcFault : Prop :=
  ∀ s : State, s.Ready → ((∃ w, s.Fetches w) ↔ (s.getReg .pc).toNat + 1 < s.mem.size) ∧
    (¬ (s.getReg .pc).toNat + 1 < s.mem.size →
      step s = .next { s with run := .faulted (.pcFault (s.getReg .pc)) })

/-- R104 and R183: a step whose word the engine's decoder faults on enters FAULTED with that error, Pc advanced by 2
and nothing else changed; JmpReg and JmpImm are among those words (R140, R141, decision D5, log 8). -/
def Obligations.DecodeFaultLeavesOnlyPcAdvanced : Prop :=
  ∀ (s : State) (w : Word) (e : EngineError), s.Ready → s.Fetches w → engineDecode w = .error e →
    step s = .next { s.setReg .pc (s.getReg .pc + 2#16) with run := .faulted e }

/-- R100 (decisions D13 and D19, log 1, 2, 16): the halt flag is tested before every step, and HALTED and FAULTED are
final. -/
def Obligations.ControlUnitHaltsAndStops : Prop :=
  ∀ s : State,
    (s.run = .running → s.halt = true → step s = .next { s with run := .halted }) ∧
    (s.run = .halted → step s = .next s) ∧
    (∀ e, s.run = .faulted e → step s = .fault (.faulted e))

/-- The machine never gets stuck on an instruction: a step from any state that is not FAULTED answers a next state
(R112, "every operation runs to completion"; that an error is a next state is the model's form, log 2). -/
def Obligations.StepAlwaysAnswersUnlessFaulted : Prop :=
  ∀ s : State, s.NotFaulted → ∃ t, step s = .next t

/-- R111, R196: the step port does not read the halt flag or the run state: the host's step gives the same result, and
leaves both as they were, for every instruction but a Signal with a registered handler. -/
def Obligations.StepPortIgnoresHaltAndRunState : Prop :=
  ∀ (s : State) (h : Bool) (r : RunState),
    (∀ w id, s.Fetches w → decode w = .ok (.signal id) → HandlerTable.find s.handlers id = none) →
    (stepPort { s with halt := h, run := r }).error = (stepPort s).error ∧
    (stepPort { s with halt := h, run := r }).state = { (stepPort s).state with halt := h, run := r }

/-- R106 and R184: after an error the host's next step does not re-execute the faulting instruction: Pc has moved past
it; only PcFault leaves Pc, and there the retry faults again. For every instruction but a Signal with a registered
handler (Pc's wrap is decision D3, log 6). -/
def Obligations.HostRetryDoesNotReExecute : Prop :=
  ∀ (s t : State) (e : EngineError), stepPort s = .err e t →
    (∀ w id, s.Fetches w → decode w = .ok (.signal id) → HandlerTable.find s.handlers id = none) →
    (e.name = .pcFault → t = s ∧ stepPort t = .err e t) ∧
    (e.name ≠ .pcFault → t.getReg .pc = s.getReg .pc + 2#16)

/-! ### Instructions: results, completion, faults -/

/-- R120: Nop has no effect, in every state. -/
def Obligations.NopHasNoEffect : Prop := ∀ s : State, exec .nop s = .next s

/-- R125: Push stores the immediate, zero-extended, at Sp, then adds 2 to Sp (modulo 2^16, decision D2, log 6);
nothing else changes. -/
def Obligations.PushStoresZeroExtendedImmediate : Prop :=
  ∀ (imm : Byte) (s : State), (s.getReg .sp).toNat + 1 < s.mem.size →
    ∃ t, exec (.push imm) s = .next t ∧ t.getReg .sp = s.getReg .sp + 2#16 ∧
      t.mem.readByte (s.getReg .sp).toNat = some imm ∧
      t.mem.readByte ((s.getReg .sp).toNat + 1) = some 0x00#8 ∧
      SameBytesBut (s.getReg .sp).toNat s t ∧ SameRegsBut [.sp] s t ∧ SameControl s t ∧ t.run = s.run

/-- R127: PushRegister stores the register's value at Sp, then adds 2 to Sp (modulo 2^16, decision D2, log 6); of Sp
the value before the push, of Pc the address of the following instruction (Pc is already advanced); nothing else
changes. -/
def Obligations.PushRegisterStoresTheRegister : Prop :=
  ∀ (r : Reg) (s : State), (s.getReg .sp).toNat + 1 < s.mem.size →
    ∃ t, exec (.pushRegister r) s = .next t ∧ t.getReg .sp = s.getReg .sp + 2#16 ∧
      t.mem.readWord (s.getReg .sp).toNat = some (s.getReg r) ∧
      SameBytesBut (s.getReg .sp).toNat s t ∧ SameRegsBut [.sp] s t ∧ SameControl s t ∧ t.run = s.run

/-- R107, R183: where the word at Sp is not in bounds, Push and PushRegister raise WriteFault of Sp (the value is
decision D8, log 11), and Sp and memory are unchanged. -/
def Obligations.PushOutOfBoundsRaisesWriteFault : Prop :=
  ∀ (imm : Byte) (r : Reg) (s : State), ¬ (s.getReg .sp).toNat + 1 < s.mem.size →
    exec (.push imm) s = .next { s with run := .faulted (.writeFault (s.getReg .sp)) } ∧
    exec (.pushRegister r) s = .next { s with run := .faulted (.writeFault (s.getReg .sp)) }

/-- R126: PopRegister puts the word below Sp (at Sp - 2 modulo 2^16, decision D2, log 6) into the register and takes 2
from Sp; of Sp itself the popped value stays; memory and everything else are unchanged. Every register, Pc and Flags
among them, takes the value (R22). -/
def Obligations.PopRegisterLoadsTheStackTop : Prop :=
  ∀ (r : Reg) (s : State) (v : Word), s.mem.readWord (s.getReg .sp - 2#16).toNat = some v →
    ∃ t, exec (.popRegister r) s = .next t ∧ t.getReg r = v ∧
      (r ≠ .sp → t.getReg .sp = s.getReg .sp - 2#16) ∧
      SameRegsBut [.sp, r] s t ∧ SameBytes s t ∧ SameControl s t ∧ t.run = s.run

/-- R108, R183: where the word at Sp - 2 (modulo 2^16, decision D2, log 6) is not in bounds, PopRegister raises
ReadFault of that address (decision D8, log 11) and nothing else changes. An underflowing pop is such a case: Sp = 0 for
every capacity below 65536, Sp = 1 for every legal one. -/
def Obligations.PopOutOfBoundsRaisesReadFault : Prop :=
  ∀ (r : Reg) (s : State),
    (s.mem.readWord (s.getReg .sp - 2#16).toNat = none →
      exec (.popRegister r) s = .next { s with run := .faulted (.readFault (s.getReg .sp - 2#16)) }) ∧
    (s.getReg .sp = 0#16 → s.mem.size < 65536 →
      exec (.popRegister r) s = .next { s with run := .faulted (.readFault 0xFFFE#16) }) ∧
    (s.getReg .sp = 1#16 → s.mem.sizeLegal →
      exec (.popRegister r) s = .next { s with run := .faulted (.readFault 0xFFFF#16) })

/-- R160: with S in Sp and both words in bounds, AddStack leaves the sum modulo 2^16 of the two top words (decision D1,
log 5) at S - 4, the old top word at S - 2, and S - 2 in Sp (addresses modulo 2^16, decision D2, log 6); nothing else
changes. -/
def Obligations.AddStackReplacesTwoWordsByTheirSum : Prop :=
  ∀ (s : State) (a b : Word), s.mem.readWord (s.getReg .sp - 2#16).toNat = some a →
    s.mem.readWord (s.getReg .sp - 4#16).toNat = some b →
    ∃ t, exec .addStack s = .next t ∧ t.getReg .sp = s.getReg .sp - 2#16 ∧
      t.mem.readWord (s.getReg .sp - 4#16).toNat = some (a + b) ∧
      t.mem.readWord (s.getReg .sp - 2#16).toNat = some a ∧
      SameBytesBut (s.getReg .sp - 4#16).toNat s t ∧ SameRegsBut [.sp] s t ∧ SameControl s t ∧ t.run = s.run

/-- R160, R183: a first Pop out of bounds leaves Sp; a second one leaves Sp as the first Pop left it, decreased by 2
("partial progress is retained"); both raise ReadFault (addresses by decisions D2 and D8, log 6, 11). -/
def Obligations.AddStackFaultKeepsFirstPop : Prop :=
  ∀ s : State,
    (s.mem.readWord (s.getReg .sp - 2#16).toNat = none →
      exec .addStack s = .next { s with run := .faulted (.readFault (s.getReg .sp - 2#16)) }) ∧
    ((∃ a, s.mem.readWord (s.getReg .sp - 2#16).toNat = some a) →
      s.mem.readWord (s.getReg .sp - 4#16).toNat = none →
      exec .addStack s =
        .next { s.setReg .sp (s.getReg .sp - 2#16) with run := .faulted (.readFault (s.getReg .sp - 4#16)) })

/-- R161: AddRegister puts the sum modulo 2^16 (decision D1, log 5) of r1 and r2 into r1, whichever registers they are,
the same one twice, Pc and Flags among them; it always completes and nothing else changes. -/
def Obligations.AddRegisterAddsInPlace : Prop :=
  ∀ (r1 r2 : Reg) (s : State),
    ∃ t, exec (.addRegister r1 r2) s = .next t ∧ t.getReg r1 = s.getReg r1 + s.getReg r2 ∧
      SameRegsBut [r1] s t ∧ SameBytes s t ∧ SameControl s t ∧ t.run = s.run

/-- R140, R141 (decision D5, log 8; the value decision D8, log 11): JmpReg, whatever its field, and JmpImm raise
UnknownOp and change nothing else. -/
def Obligations.JumpOpcodesRaiseUnknownOp : Prop :=
  ∀ (field : BitVec 4) (s : State),
    exec (.jmpReg field) s = .next { s with run := .faulted (.unknownOp 0x07#8) } ∧
    exec .jmpImm s = .next { s with run := .faulted (.unknownOp 0x08#8) }

/-! ### Signal and handlers -/

/-- R150, R183: a Signal whose id has no handler raises UnknownSignal (the value is decision D8, log 11) and changes
nothing else. -/
def Obligations.SignalWithoutHandlerRaisesUnknownSignal : Prop :=
  ∀ (id : Byte) (s : State), HandlerTable.find s.handlers id = none →
    exec (.signal id) s = .next { s with run := .faulted (.unknownSignal id) }

/-- R150, R188: a Signal whose id has a handler, known or unknown, nesting steps or not, completes: the next state is
the machine as the handler left it where it returned Ok, and that machine in FAULTED of the error it returned where it
returned one; a handler changes neither the run state nor the capacity (for an unknown one by log 22). The handler runs
with nested steps followed to the model's depth (log 23), and that it returns is the model's (log 24). -/
def Obligations.SignalWithHandlerCompletes : Prop :=
  ∀ (id : Byte) (h : Handler) (s : State), HandlerTable.find s.handlers id = some h →
    ∃ t, exec (.signal id) s = .next t ∧ t.mem.size = s.mem.size ∧
      ((runHandler (nestedStep Config.nestingLimit) h none s = .ok t ∧ t.run = s.run) ∨
        ∃ e u, runHandler (nestedStep Config.nestingLimit) h none s = .err e u ∧ u.run = s.run ∧
          t = { u with run := .faulted e })

/-- R150: a handler that changes nothing makes Signal behave as Nop; one that writes Pc sets the next fetch; one that
reads Pc sees it already advanced (Pc is advanced before EXECUTE). Handlers as data are the model's form, log 21. -/
def Obligations.SignalRunsTheHandlerOnTheMachine : Prop :=
  ∀ (id : Byte) (s : State),
    (HandlerTable.find s.handlers id = some .returnOk → exec (.signal id) s = .next s) ∧
    (∀ v, HandlerTable.find s.handlers id = some (.setRegister .pc v .returnOk) →
      exec (.signal id) s = .next (s.setReg .pc v)) ∧
    (∀ r, HandlerTable.find s.handlers id = some (.copyRegister r .pc .returnOk) →
      exec (.signal id) s = .next (s.setReg r (s.getReg .pc)))

/-- R224 (decision D25, log 19), R100: the reference halt handler sets the halt flag and nothing else, and the run loop
then enters HALTED without a further step. -/
def Obligations.HaltHandlerEndsTheRun : Prop :=
  ∀ (id : Byte) (s : State), HandlerTable.find s.handlers id = some haltHandler → s.run = .running →
    exec (.signal id) s = .next { s with halt := true } ∧
    step { s with halt := true } = .next { s with halt := true, run := .halted }

/-- R181 (decision D20, log 18): an error a handler returns is the step's error unchanged, and what the handler wrote
before it stays. -/
def Obligations.HandlerErrorKeepsItsWrites : Prop :=
  ∀ (id : Byte) (s : State) (r : Reg) (v : Word) (e : EngineError),
    HandlerTable.find s.handlers id = some (.setRegister r v (.returnErr e)) →
    exec (.signal id) s = .next { s.setReg r v with run := .faulted e }

/-- R151 (decision D14, log 22): an unknown handler admits every outcome: what it leaves in the registers, the halt flag,
the handler table and every byte of memory, and its result, are the free value's, whatever that is: of two registrations
of an id and of two writes to a byte the last one, a write out of bounds not at all. The capacity stays (log 22), and one
free value is used up. -/
def Obligations.UnknownHandlerOutcomeIsTheFreeValue : Prop :=
  ∀ (id : Byte) (s : State) (key : Nat), HandlerTable.find s.handlers id = some (.unknown key) →
    ∃ (o : HandlerOutcome) (t : State), o = Config.unknownHandler key s.freeIndex s.view ∧
      exec (.signal id) s = .next t ∧ t.regs = o.regs ∧ t.halt = o.halt ∧ t.freeIndex = s.freeIndex + 1 ∧
      (∀ k, HandlerTable.find t.handlers k = (o.handlers.reverse.find? fun c => c.1 == k).map fun c => c.2) ∧
      t.mem.size = s.mem.size ∧
      (∀ b : Nat, b < s.mem.size → ∀ v, (o.writes.reverse.find? fun c => c.1 == b) = some (b, v) →
        t.mem.readByte b = some v) ∧
      (∀ b : Nat, (o.writes.reverse.find? fun c => c.1 == b) = none → t.mem.readByte b = s.mem.readByte b) ∧
      (o.result = none → t.run = s.run) ∧ ∀ e, o.result = some e → t.run = .faulted e

/-- R64, R48, R50: a handler writes a byte or a word of memory, a given one or a register's, at a fixed address or the one
a register holds, through the memory port: in bounds the bytes read back, every other byte and all else is unchanged; out
of bounds nothing changes, and the handler sees that the port failed (here it returns Ok or an error by it; the form of a
handler is the model's, log 21, 25). -/
def Obligations.HandlerWritesMemoryThroughThePort : Prop :=
  ∀ (id : Byte) (s : State) (p : HandlerAddr) (h : Handler) (e : EngineError),
    HandlerTable.find s.handlers id = some h →
    (∀ v : Byte, (h = .writeByte p v .returnOk (.returnErr e) ∨
        ∃ r, h = .storeByte p r .returnOk (.returnErr e) ∧ v = (s.getReg r).extractLsb' 0 8) →
      (s.handlerAddr p < s.mem.size → ∃ t, exec (.signal id) s = .next t ∧ t.regs = s.regs ∧ SameControl s t ∧
        t.run = s.run ∧ t.mem.readByte (s.handlerAddr p) = some v ∧
        ∀ b : Nat, b ≠ s.handlerAddr p → t.mem.readByte b = s.mem.readByte b) ∧
      (¬ s.handlerAddr p < s.mem.size → exec (.signal id) s = .next { s with run := .faulted e })) ∧
    (∀ v : Word, (h = .writeWord p v .returnOk (.returnErr e) ∨
        ∃ r, h = .storeWord p r .returnOk (.returnErr e) ∧ v = s.getReg r) →
      (s.handlerAddr p + 1 < s.mem.size → ∃ t, exec (.signal id) s = .next t ∧ t.regs = s.regs ∧ SameControl s t ∧
        t.run = s.run ∧ t.mem.readWord (s.handlerAddr p) = some v ∧ SameBytesBut (s.handlerAddr p) s t) ∧
      (¬ s.handlerAddr p + 1 < s.mem.size → exec (.signal id) s = .next { s with run := .faulted e }))

/-- R64, R47, R49: a handler reads a byte or a word of memory through the memory port: in bounds it gets what is there
(put into a register, the byte zero-extended, which is the model's form, log 21, 25) and nothing else changes; out of
bounds nothing changes and the handler sees that the port failed. -/
def Obligations.HandlerReadsMemoryThroughThePort : Prop :=
  ∀ (id : Byte) (s : State) (r : Reg) (p : HandlerAddr) (e : EngineError),
    (HandlerTable.find s.handlers id = some (.loadByte r p .returnOk (.returnErr e)) →
      (∀ v, s.mem.readByte (s.handlerAddr p) = some v →
        exec (.signal id) s = .next (s.setReg r (0x00#8 ++ v))) ∧
      (¬ s.handlerAddr p < s.mem.size → exec (.signal id) s = .next { s with run := .faulted e })) ∧
    (HandlerTable.find s.handlers id = some (.loadWord r p .returnOk (.returnErr e)) →
      (∀ v, s.mem.readWord (s.handlerAddr p) = some v → exec (.signal id) s = .next (s.setReg r v)) ∧
      (¬ s.handlerAddr p + 1 < s.mem.size → exec (.signal id) s = .next { s with run := .faulted e }))

/-- R152, R189: a step that a handler runs executes the instruction at Pc on the same machine, and its result goes to
the handler: a handler that runs one step and returns that step's result makes the Signal do what that instruction
does, its error included. For an instruction that is not itself a Signal. -/
def Obligations.NestedStepRunsTheNextInstruction : Prop :=
  ∀ (id : Byte) (s : State) (w : Word) (i : Instr),
    HandlerTable.find s.handlers id = some (.step .returnStepResult .returnStepResult) →
    s.Fetches w → decode w = .ok i → i.isSignal = false →
    exec (.signal id) s = exec i (s.setReg .pc (s.getReg .pc + 2#16))

/-- R189: a fault raised by a nested step goes to the handler, which decides what the outer Signal step returns: a
handler that ignores it returns Ok, and what the nested step had done stays: after PcFault nothing, after an error of
DECODE the advanced Pc, after an error of EXECUTE (any instruction's that is no Signal) what the instruction leaves, which
for AddStack's second Pop is the first Pop's decrement of Sp too (R183; decisions D2, D3, log 6). A nested Signal is the
statement NestedSignalEntersItsOwnHandler. -/
def Obligations.HandlerMayIgnoreNestedFault : Prop :=
  ∀ (id : Byte) (s : State), HandlerTable.find s.handlers id = some (.step .returnOk .returnOk) →
    (s.mem.readWord (s.getReg .pc).toNat = none → exec (.signal id) s = .next s) ∧
    (∀ w e, s.Fetches w → engineDecode w = .error e →
      exec (.signal id) s = .next (s.setReg .pc (s.getReg .pc + 2#16))) ∧
    (∀ w i t, s.Fetches w → decode w = .ok i → i.isSignal = false →
      exec i (s.setReg .pc (s.getReg .pc + 2#16)) = .next t → exec (.signal id) s = .next { t with run := s.run }) ∧
    (∀ w, s.Fetches w → decode w = .ok .addStack →
      (∃ a, s.mem.readWord (s.getReg .sp - 2#16).toNat = some a) →
      s.mem.readWord (s.getReg .sp - 4#16).toNat = none →
      exec (.signal id) s =
        .next ((s.setReg .pc (s.getReg .pc + 2#16)).setReg .sp (s.getReg .sp - 2#16)))

/-- R152, R189: "a nested Signal enters its own handler the same way and returns to the handler that ran the nested
step". A handler that runs one step, whose word is a Signal `k`: without a handler for `k` the step's result is
UnknownSignal of `k`; with one, that handler is run on the machine with Pc advanced, and its result, on the machine as it
left it, decides how the outer handler goes on. Where the inner handler runs no further step and the outer one returns the
result, the outer Signal does exactly what the inner Signal does. The inner handler's own steps have one level of nesting
less left, of the levels the model follows (DESIGN CHOICE, log 23). -/
def Obligations.NestedSignalEntersItsOwnHandler : Prop :=
  ∀ (id k : Byte) (s : State) (w : Word) (onOk onErr : Handler),
    HandlerTable.find s.handlers id = some (.step onOk onErr) → s.Fetches w → decode w = .ok (.signal k) →
    (HandlerTable.find s.handlers k = none →
      exec (.signal id) s =
        (runHandler (nestedStep Config.nestingLimit) onErr (some (.unknownSignal k))
          (s.setReg .pc (s.getReg .pc + 2#16))).conclude) ∧
    (∀ g, HandlerTable.find s.handlers k = some g →
      (∀ t, runHandler (nestedStep (Config.nestingLimit - 1)) g none (s.setReg .pc (s.getReg .pc + 2#16)) = .ok t →
        exec (.signal id) s = (runHandler (nestedStep Config.nestingLimit) onOk none t).conclude) ∧
      (∀ e t, runHandler (nestedStep (Config.nestingLimit - 1)) g none (s.setReg .pc (s.getReg .pc + 2#16)) = .err e t →
        exec (.signal id) s = (runHandler (nestedStep Config.nestingLimit) onErr (some e) t).conclude) ∧
      (g.stepFree = true → onOk = .returnStepResult → onErr = .returnStepResult →
        exec (.signal id) s = exec (.signal k) (s.setReg .pc (s.getReg .pc + 2#16))))

/-- R32, R153: the last registration for an id wins and no other id changes; a handler that redefines its own id ends
as it began, and the new handler applies to the Signals after it. -/
def Obligations.LastRegistrationWins : Prop :=
  (∀ (t : HandlerTable) (id k : Byte) (h : Handler),
    HandlerTable.find (HandlerTable.define t id h) k = if k = id then some h else HandlerTable.find t k) ∧
  ∀ (id : Byte) (s : State) (g : Handler),
    HandlerTable.find s.handlers id = some (.defineHandler id g .returnOk) →
    ∃ t, exec (.signal id) s = .next t ∧ HandlerTable.find t.handlers id = some g ∧ t.regs = s.regs ∧ t.mem = s.mem ∧
      t.halt = s.halt ∧ t.run = s.run

/-! ### Frames and whole-machine rules -/

/-- R23, R29: an instruction that is not a Signal leaves every register but those R23 lists for it, Flags included,
whether it completes or raises an error. -/
def Obligations.InstructionsWriteOnlyTheirRegisters : Prop :=
  ∀ (i : Instr) (s t : State), i.isSignal = false → exec i s = .next t → SameRegsBut i.writes s t

/-- R54: an instruction that stores changes only the two bytes at the address its push writes at; every other
instruction that is not a Signal changes no byte. Whether it completes or raises an error. -/
def Obligations.InstructionsStoreOnlyAtTheStack : Prop :=
  ∀ (i : Instr) (s t : State), i.isSignal = false → exec i s = .next t →
    (∀ a : Word, storeAddr i s = some a → SameBytesBut a.toNat s t) ∧
    (storeAddr i s = none → SameBytes s t)

/-- R31, R34: "The engine never sets halt itself; only a registered handler may": a step changes the halt flag, the
handler table or the model's counter of free values only where it executes a Signal whose id has a handler. -/
def Obligations.OnlyHandlersChangeHaltAndTable : Prop :=
  ∀ s t : State, step s = .next t →
    (∀ w id h, s.Fetches w → decode w = .ok (.signal id) → HandlerTable.find s.handlers id ≠ some h) →
    SameControl s t

/-- R180: the errors an instruction that is not a Signal can raise; AddStack's push never raises WriteFault (R160),
Nop and AddRegister raise nothing. -/
def Obligations.ErrorsComeOnlyFromTheirRaisers : Prop :=
  ∀ (i : Instr) (s t : State) (e : EngineError), i.isSignal = false → s.NotFaulted → exec i s = .next t →
    t.run = .faulted e → e.name ∈ i.mayRaise

/-- R45: memory is a fixed-capacity array: no step changes the capacity, a handler's included. -/
def Obligations.StepKeepsMemoryCapacity : Prop :=
  ∀ s t : State, step s = .next t → t.mem.size = s.mem.size

/-- Every step keeps the invariant of the machine's data: memory in its canonical form with every listed byte in
bounds, MEM_SIZE legal, at most one handler for an id (20_memory.md R45, R46, 00_scope.md R5, 10_state.md R32; the
canonical forms are the model's, log 27). -/
def Obligations.StepKeepsInvariant : Prop :=
  ∀ s t : State, s.Inv → step s = .next t → t.Inv

/-- Every state any number of rounds after a state with the invariant has it, with the same capacity, and each byte
address of it reads exactly when it is below MEM_SIZE (R46, R47). -/
def Obligations.ReachableStatesKeepInvariantAndBounds : Prop :=
  ∀ (k : Nat) (s t : State), s.Inv → Reaches k s t →
    t.Inv ∧ t.mem.size = s.mem.size ∧ ∀ a : Nat, (∃ v, t.mem.readByte a = some v) ↔ a < s.mem.size

/-- R62, R228: a word pushed over the following instruction is what the next fetch reads. That fetches see stores at once
is the spec's own choice, decision D11 (log 14, DEDUCED, unsafe for self-modifying code on a machine that caches). -/
def Obligations.PushedWordIsFetchedNext : Prop :=
  ∀ (r : Reg) (s : State), s.getReg .sp = s.getReg .pc → (s.getReg .sp).toNat + 1 < s.mem.size →
    ∃ t, exec (.pushRegister r) s = .next t ∧ t.getReg .pc = s.getReg .pc ∧ t.Fetches (s.getReg r)

/-- The stack law, R128: after N pushes that succeed, N pops succeed and give the values in reverse order, Sp returns to
its starting value, and no other register and no byte of memory is changed by the pops. The hypothesis on N rules out
what the rule does not speak of: more pushes than a 65536-byte memory holds words, where Sp wraps (decision D2, log 6)
over the first of them. -/
def Obligations.StackIsLastInFirstOut : Prop :=
  ∀ (vs : List Word) (s t : State), (s.mem.size < 65536 ∨ 2 * vs.length ≤ 65536) → pushAll vs s = .ok t →
    ∃ u, popAll vs.length t = .ok (vs.reverse, u) ∧ u.getReg .sp = s.getReg .sp ∧
      SameRegsBut [.sp] s u ∧ SameBytes t u

/-! ### Toolchain syntax -/

/-- R83 in the source's words: an instruction that the assembler reads from a line is well-formed, its word decodes to
the same opcode and operands, and the line's image is that word, low byte first (R90; line details are decisions D21 to
D24, log 28). -/
def Obligations.AssembledLineDecodesToItself : Prop :=
  ∀ (line : List Char) (i : Instr), parseLine line = .ok (some i) →
    i.WellFormed ∧ decode (encode i) = .ok i ∧
      assembleLines [line] = .ok [(encode i).extractLsb' 0 8, (encode i).extractLsb' 8 8]

/-- R90: "abort the entire run on the first malformed line; no partial assembly": lines that are well-formed before a
malformed one do not matter, nor what comes after it. -/
def Obligations.AssemblyAbortsOnFirstMalformedLine : Prop :=
  ∀ (before after : List (List Char)) (bad : List Char) (e : AsmError),
    (∀ line ∈ before, ∃ r, parseLine line = .ok r) → parseLine bad = .error e →
    assembleLines (before ++ bad :: after) = .error e

/-- R85, R86, R89 (decisions D21 to D24, log 28): on a line that is no comment, an unknown mnemonic fails as
UnknownOpCode whatever follows it, and a known one with the wrong number of operand tokens as LenErr whatever they
are. -/
def Obligations.AssemblerChecksMnemonicThenArity : Prop :=
  ∀ (line mnemonic : List Char) (operands : List (List Char)), line.head? ≠ some ';' →
    tokens line = mnemonic :: operands →
    (OpCode.fromMnemonic mnemonic = none → parseLine line = .error .unknownOpCode) ∧
    (∀ o, OpCode.fromMnemonic mnemonic = some o → operands.length ≠ o.arity → parseLine line = .error .lenErr)
end

