-- ==== Sys2Proof/Laws/Bits.lean ====
section
/-! SUPPORT. The bit fields as numbers: what each field of a word, and each word made of fields, is as a natural
number, so that `omega` settles questions about them. -/

namespace Sys2Proof

@[simp] theorem opcodeField_toNat (w : Word) : (opcodeField w).toNat = w.toNat % 256 := by
  simp [opcodeField, BitVec.extractLsb'_toNat]

@[simp] theorem immField_toNat (w : Word) : (immField w).toNat = w.toNat / 256 := by
  have := w.isLt
  simp only [immField, BitVec.extractLsb'_toNat, Nat.shiftRight_eq_div_pow]
  omega

@[simp] theorem regField_toNat (w : Word) : (regField w).toNat = w.toNat / 256 % 16 := by
  simp [regField, BitVec.extractLsb'_toNat, Nat.shiftRight_eq_div_pow]

@[simp] theorem reg2Field_toNat (w : Word) : (reg2Field w).toNat = w.toNat / 4096 := by
  have := w.isLt
  simp only [reg2Field, BitVec.extractLsb'_toNat, Nat.shiftRight_eq_div_pow]
  omega

@[simp] theorem lowByte_toNat (w : Word) : (lowByte w).toNat = w.toNat % 256 := opcodeField_toNat w

@[simp] theorem highByte_toNat (w : Word) : (highByte w).toNat = w.toNat / 256 := immField_toNat w

/-- A concatenation as a number. -/
theorem append_toNat {m n : Nat} (x : BitVec m) (y : BitVec n) : (x ++ y).toNat = x.toNat * 2 ^ n + y.toNat := by
  rw [BitVec.toNat_append, ← Nat.shiftLeft_add_eq_or_of_lt y.isLt, Nat.shiftLeft_eq]

@[simp] theorem wordOfBytes_toNat (lo hi : Byte) : (wordOfBytes lo hi).toNat = hi.toNat * 256 + lo.toNat :=
  append_toNat hi lo

@[simp] theorem wordOfFields_toNat (hi lo : BitVec 4) (op : OpCode) :
    (wordOfFields hi lo op).toNat = (hi.toNat * 16 + lo.toNat) * 256 + op.byte.toNat := by
  show ((hi ++ lo) ++ op.byte).toNat = _
  rw [append_toNat, append_toNat]
  norm_num

theorem wordOfBytes_low_high (v : Word) : wordOfBytes (lowByte v) (highByte v) = v := by
  apply BitVec.eq_of_toNat_eq
  rw [wordOfBytes_toNat, lowByte_toNat, highByte_toNat]
  omega

@[simp] theorem lowByte_wordOfBytes (lo hi : Byte) : lowByte (wordOfBytes lo hi) = lo := by
  apply BitVec.eq_of_toNat_eq
  have := lo.isLt
  rw [lowByte_toNat, wordOfBytes_toNat]
  omega

@[simp] theorem highByte_wordOfBytes (lo hi : Byte) : highByte (wordOfBytes lo hi) = hi := by
  apply BitVec.eq_of_toNat_eq
  have := lo.isLt
  rw [highByte_toNat, wordOfBytes_toNat]
  omega

/-- The opcode-byte decoder recognises each of the nine opcodes (30_encoding.md R77). -/
@[simp] theorem OpCode.ofByte_byte (o : OpCode) : OpCode.ofByte o.byte = some o := by cases o <;> rfl

theorem OpCode.byte_of_ofByte {b : Byte} {o : OpCode} (h : OpCode.ofByte b = some o) : o.byte = b := by
  unfold OpCode.ofByte at h
  split at h <;> first | (cases h; apply BitVec.eq_of_toNat_eq; simp [OpCode.byte, *]) | cases h

/-- The id of a register selects it (R74). -/
@[simp] theorem Reg.ofField_field (r : Reg) : Reg.ofField r.field = .ok r := by cases r <;> rfl

theorem Reg.field_lt (r : Reg) : r.field.toNat < 8 := by cases r <;> decide

/-- Everything a register field can give (R74): the register whose id it is, or UnknownReg of it. -/
theorem Reg.ofField_cases (f : BitVec 4) :
    (∃ r, Reg.ofField f = .ok r ∧ r.field = f ∧ f.toNat < 8) ∨
      (Reg.ofField f = .error (.unknownReg f) ∧ 8 ≤ f.toNat) := by
  unfold Reg.ofField
  split
  case h_1 h => exact .inl ⟨.a, rfl, BitVec.eq_of_toNat_eq h.symm, by omega⟩
  case h_2 h => exact .inl ⟨.b, rfl, BitVec.eq_of_toNat_eq h.symm, by omega⟩
  case h_3 h => exact .inl ⟨.c, rfl, BitVec.eq_of_toNat_eq h.symm, by omega⟩
  case h_4 h => exact .inl ⟨.m, rfl, BitVec.eq_of_toNat_eq h.symm, by omega⟩
  case h_5 h => exact .inl ⟨.sp, rfl, BitVec.eq_of_toNat_eq h.symm, by omega⟩
  case h_6 h => exact .inl ⟨.pc, rfl, BitVec.eq_of_toNat_eq h.symm, by omega⟩
  case h_7 h => exact .inl ⟨.bp, rfl, BitVec.eq_of_toNat_eq h.symm, by omega⟩
  case h_8 h => exact .inl ⟨.flags, rfl, BitVec.eq_of_toNat_eq h.symm, by omega⟩
  case h_9 h0 h1 h2 h3 h4 h5 h6 h7 =>
    refine .inr ⟨rfl, ?_⟩
    by_contra hlt
    have : f.toNat = 0 ∨ f.toNat = 1 ∨ f.toNat = 2 ∨ f.toNat = 3 ∨ f.toNat = 4 ∨ f.toNat = 5 ∨ f.toNat = 6 ∨
      f.toNat = 7 := by omega
    tauto

end Sys2Proof
end

