-- ==== Sys2Proof/Laws/Decode.lean ====
section
/-! SUPPORT. Everything the decoders can do, once. -/

namespace Sys2Proof

/-- What decodes has its opcode byte in the word (30_encoding.md R71, R77). -/
theorem decode_opcode {w : Word} {i : Instr} (h : decode w = .ok i) :
    OpCode.ofByte (opcodeField w) = some i.opcode := by
  unfold decode at h
  split at h
  all_goals first | (cases h; assumption) | cases h | skip
  all_goals
    split at h <;> first | (cases h; assumption) | cases h | (split at h <;> first | (cases h; assumption) | cases h)

/-- An error of the engine's decoder is one of `decode`, or the UnknownOp of a jump opcode (R76). -/
theorem engineDecode_error {w : Word} {e : EngineError} (h : engineDecode w = .error e) :
    decode w = .error e ∨
      ∃ i, decode w = .ok i ∧
        ((∃ f, i = .jmpReg f ∧ e = .unknownOp OpCode.jmpReg.byte) ∨ (i = .jmpImm ∧ e = .unknownOp OpCode.jmpImm.byte)) := by
  cases hd : decode w with
  | error e' => simp only [engineDecode, hd] at h; cases h; exact .inl rfl
  | ok i =>
    have hb := OpCode.byte_of_ofByte (decode_opcode hd)
    refine .inr ⟨i, rfl, ?_⟩
    simp only [engineDecode, hd, ← hb] at h
    cases i <;> simp [Instr.executed, Instr.opcode] at h ⊢ <;> exact h.symm

end Sys2Proof
end

