-- ==== Sys2Proof/Laws/State.lean ====
section
/-! SUPPORT. The fields of each update of the state, true by unfolding once. -/

namespace Sys2Proof.Machine

/-! ### The register file -/

@[simp] theorem Regs.get_set_same (x : Regs) (r : Reg) (v : Word) : (x.set r v).get r = v := by cases r <;> rfl

theorem Regs.get_set_other (x : Regs) {r q : Reg} (v : Word) (h : q ≠ r) : (x.set r v).get q = x.get q := by
  cases r <;> cases q <;> first | rfl | exact absurd rfl h

theorem Regs.get_set (x : Regs) (r q : Reg) (v : Word) : (x.set r v).get q = if q = r then v else x.get q := by
  by_cases h : q = r
  · subst h; simp
  · simp [h, Regs.get_set_other]

/-- Register files that read alike are equal: every register has its one slot (10_state.md R20). -/
theorem Regs.ext_get {x y : Regs} (h : ∀ r, x.get r = y.get r) : x = y := by
  cases x; cases y
  have ha := h .a; have hb := h .b; have hc := h .c; have hm := h .m
  have hsp := h .sp; have hpc := h .pc; have hbp := h .bp; have hf := h .flags
  simp_all [Regs.get]

@[simp] theorem Regs.zero_get (r : Reg) : Regs.zero.get r = 0#16 := by cases r <;> rfl

/-! ### `State.setReg` -/

@[simp] theorem State.setReg_regs (s : State) (r : Reg) (v : Word) : (s.setReg r v).regs = s.regs.set r v := rfl
@[simp] theorem State.setReg_halt (s : State) (r : Reg) (v : Word) : (s.setReg r v).halt = s.halt := rfl
@[simp] theorem State.setReg_handlers (s : State) (r : Reg) (v : Word) : (s.setReg r v).handlers = s.handlers := rfl
@[simp] theorem State.setReg_mem (s : State) (r : Reg) (v : Word) : (s.setReg r v).mem = s.mem := rfl
@[simp] theorem State.setReg_run (s : State) (r : Reg) (v : Word) : (s.setReg r v).run = s.run := rfl
@[simp] theorem State.setReg_freeIndex (s : State) (r : Reg) (v : Word) : (s.setReg r v).freeIndex = s.freeIndex := rfl

@[simp] theorem State.getReg_setReg_same (s : State) (r : Reg) (v : Word) : (s.setReg r v).getReg r = v := by
  simp [State.getReg]

theorem State.getReg_setReg (s : State) (r q : Reg) (v : Word) :
    (s.setReg r v).getReg q = if q = r then v else s.getReg q := by
  simp [State.getReg, Regs.get_set]

theorem State.getReg_setReg_other (s : State) {r q : Reg} (v : Word) (h : q ≠ r) :
    (s.setReg r v).getReg q = s.getReg q := by
  simp [State.getReg_setReg, h]

/-! ### `State.advance` -/

@[simp] theorem State.advance_halt (s : State) : s.advance.halt = s.halt := rfl
@[simp] theorem State.advance_handlers (s : State) : s.advance.handlers = s.handlers := rfl
@[simp] theorem State.advance_mem (s : State) : s.advance.mem = s.mem := rfl
@[simp] theorem State.advance_run (s : State) : s.advance.run = s.run := rfl
@[simp] theorem State.advance_freeIndex (s : State) : s.advance.freeIndex = s.freeIndex := rfl

@[simp] theorem State.advance_pc (s : State) : s.advance.getReg .pc = addTwo (s.getReg .pc) := by
  simp [State.advance]

theorem State.advance_other (s : State) {q : Reg} (h : q ≠ .pc) : s.advance.getReg q = s.getReg q :=
  State.getReg_setReg_other s _ h

/-! ### `State.takeError` -/

@[simp] theorem State.takeError_regs (s : State) (e : EngineError) : (s.takeError e).regs = s.regs := rfl
@[simp] theorem State.takeError_getReg (s : State) (e : EngineError) (r : Reg) :
    (s.takeError e).getReg r = s.getReg r := rfl
@[simp] theorem State.takeError_halt (s : State) (e : EngineError) : (s.takeError e).halt = s.halt := rfl
@[simp] theorem State.takeError_handlers (s : State) (e : EngineError) : (s.takeError e).handlers = s.handlers := rfl
@[simp] theorem State.takeError_mem (s : State) (e : EngineError) : (s.takeError e).mem = s.mem := rfl
@[simp] theorem State.takeError_run (s : State) (e : EngineError) : (s.takeError e).run = .faulted e := rfl
@[simp] theorem State.takeError_freeIndex (s : State) (e : EngineError) :
    (s.takeError e).freeIndex = s.freeIndex := rfl

/-! ### `State.withMem` and `State.defineHandler` -/

@[simp] theorem State.withMem_regs (s : State) (m : Memory) : (s.withMem m).regs = s.regs := rfl
@[simp] theorem State.withMem_getReg (s : State) (m : Memory) (r : Reg) :
    (s.withMem m).getReg r = s.getReg r := rfl
@[simp] theorem State.withMem_halt (s : State) (m : Memory) : (s.withMem m).halt = s.halt := rfl
@[simp] theorem State.withMem_handlers (s : State) (m : Memory) : (s.withMem m).handlers = s.handlers := rfl
@[simp] theorem State.withMem_mem (s : State) (m : Memory) : (s.withMem m).mem = m := rfl
@[simp] theorem State.withMem_run (s : State) (m : Memory) : (s.withMem m).run = s.run := rfl
@[simp] theorem State.withMem_freeIndex (s : State) (m : Memory) : (s.withMem m).freeIndex = s.freeIndex := rfl

@[simp] theorem State.defineHandler_regs (s : State) (id : Byte) (h : Handler) :
    (s.defineHandler id h).regs = s.regs := rfl
@[simp] theorem State.defineHandler_getReg (s : State) (id : Byte) (h : Handler) (r : Reg) :
    (s.defineHandler id h).getReg r = s.getReg r := rfl
@[simp] theorem State.defineHandler_halt (s : State) (id : Byte) (h : Handler) :
    (s.defineHandler id h).halt = s.halt := rfl
@[simp] theorem State.defineHandler_handlers (s : State) (id : Byte) (h : Handler) :
    (s.defineHandler id h).handlers = HandlerTable.define s.handlers id h := rfl
@[simp] theorem State.defineHandler_mem (s : State) (id : Byte) (h : Handler) :
    (s.defineHandler id h).mem = s.mem := rfl
@[simp] theorem State.defineHandler_run (s : State) (id : Byte) (h : Handler) :
    (s.defineHandler id h).run = s.run := rfl
@[simp] theorem State.defineHandler_freeIndex (s : State) (id : Byte) (h : Handler) :
    (s.defineHandler id h).freeIndex = s.freeIndex := rfl

/-! ### Results -/

@[simp] theorem Result.conclude_ok (s : State) : (Result.ok s).conclude = .next s := rfl
@[simp] theorem Result.conclude_err (e : EngineError) (s : State) :
    (Result.err e s).conclude = .next (s.takeError e) := rfl
@[simp] theorem Result.state_ok (s : State) : (Result.ok s).state = s := rfl
@[simp] theorem Result.state_err (e : EngineError) (s : State) : (Result.err e s).state = s := rfl
@[simp] theorem Result.error_ok (s : State) : (Result.ok s).error = none := rfl
@[simp] theorem Result.error_err (e : EngineError) (s : State) : (Result.err e s).error = some e := rfl

/-- The machine after the control unit's reaction to a result (R100). -/
theorem Result.conclude_next (r : Result) :
    r.conclude = .next (match r.error with | none => r.state | some e => r.state.takeError e) := by
  cases r <;> rfl

end Sys2Proof.Machine
end

