-- ==== Sys2Proof/Laws/Memory.lean ====
section
/-! SUPPORT. The memory array: read after write, the canonical form kept by every operation, and once for each port
operation everything it can do. -/

namespace Sys2Proof.Machine

/-! ### Cells -/

theorem cellAt_insertCell_same (a : Nat) (v : Byte) (l : List Host.Cell) (h : ∀ c ∈ l, c.1 ≠ a) :
    cellAt a (insertCell a v l) = v := by
  induction l with
  | nil => simp [insertCell, cellAt]
  | cons c rest ih =>
    obtain ⟨b, w⟩ := c
    have hb : a ≠ b := fun e => h (b, w) (by simp) e.symm
    have hr : ∀ c ∈ rest, c.1 ≠ a := fun c hc => h c (by simp [hc])
    by_cases hab : a < b
    · simp [insertCell, hab, cellAt]
    · simp [insertCell, hab, cellAt, hb, ih hr]

theorem cellAt_insertCell_other {a c : Nat} (v : Byte) (l : List Host.Cell) (h : c ≠ a) :
    cellAt c (insertCell a v l) = cellAt c l := by
  induction l with
  | nil => simp [insertCell, cellAt, h]
  | cons d rest ih =>
    obtain ⟨b, w⟩ := d
    by_cases hab : a < b
    · simp [insertCell, hab, cellAt, h]
    · simp [insertCell, hab, cellAt, ih]

theorem cellAt_filter_same (a : Nat) (l : List Host.Cell) :
    cellAt a (l.filter fun c => c.1 != a) = Memory.unlisted := by
  induction l with
  | nil => simp [cellAt]
  | cons d rest ih =>
    obtain ⟨b, w⟩ := d
    by_cases hb : b = a
    · simp [hb, ih]
    · simp [hb, cellAt, ih, Ne.symm hb]

theorem cellAt_filter_other {a c : Nat} (l : List Host.Cell) (h : c ≠ a) :
    cellAt c (l.filter fun d => d.1 != a) = cellAt c l := by
  induction l with
  | nil => simp
  | cons d rest ih =>
    obtain ⟨b, w⟩ := d
    by_cases hb : b = a
    · subst hb; simp [cellAt, ih, h]
    · simp [hb, cellAt, ih]

/-- Read after write, of one address or another. -/
theorem cellAt_setCell (a c : Nat) (v : Byte) (l : List Host.Cell) :
    cellAt c (setCell a v l) = if c = a then v else cellAt c l := by
  have hne : ∀ d ∈ l.filter (fun d : Host.Cell => d.1 != a), d.1 ≠ a := by simp
  by_cases hv : v = Memory.unlisted <;> by_cases hc : c = a
  · subst hc; simp [setCell, hv, cellAt_filter_same]
  · simp [setCell, hv, hc, cellAt_filter_other]
  · subst hc; simp [setCell, hv, cellAt_insertCell_same c v _ hne]
  · simp [setCell, hv, hc, cellAt_insertCell_other, cellAt_filter_other]

theorem mem_insertCell (a : Nat) (v : Byte) (l : List Host.Cell) (d : Host.Cell) :
    d ∈ insertCell a v l ↔ d = (a, v) ∨ d ∈ l := by
  induction l with
  | nil => simp [insertCell]
  | cons c rest ih =>
    by_cases h : a < c.1
    · simp [insertCell, h]
    · simp only [insertCell, h, if_false, List.mem_cons, ih]; tauto

theorem insertCell_pairwise (a : Nat) (v : Byte) (l : List Host.Cell) (h : ∀ c ∈ l, c.1 ≠ a)
    (hl : l.Pairwise fun c d => c.1 < d.1) : (insertCell a v l).Pairwise fun c d => c.1 < d.1 := by
  induction l with
  | nil => simp [insertCell]
  | cons c rest ih =>
    have hc : c.1 ≠ a := h c (by simp)
    rw [List.pairwise_cons] at hl
    by_cases hab : a < c.1
    · simp only [insertCell, hab, if_true, List.pairwise_cons, List.mem_cons, forall_eq_or_imp]
      exact ⟨⟨trivial, fun d hd => lt_trans hab (hl.1 d hd)⟩, hl⟩
    · simp only [insertCell, hab, if_false, List.pairwise_cons]
      refine ⟨fun d hd => ?_, ih (fun d hd => h d (by simp [hd])) hl.2⟩
      rcases (mem_insertCell a v rest d).1 hd with rfl | hd
      · show c.1 < a; omega
      · exact hl.1 d hd

/-! ### Single bytes -/

@[simp] theorem Memory.set_size (m : Memory) (a : Nat) (v : Byte) : (m.set a v).size = m.size := rfl

theorem Memory.get_set (m : Memory) (a c : Nat) (v : Byte) :
    (m.set a v).get c = if c = a then v else m.get c := cellAt_setCell a c v m.cells

@[simp] theorem Memory.get_set_same (m : Memory) (a : Nat) (v : Byte) : (m.set a v).get a = v := by
  simp [Memory.get_set]

theorem Memory.get_set_other (m : Memory) {a c : Nat} (v : Byte) (h : c ≠ a) : (m.set a v).get c = m.get c := by
  simp [Memory.get_set, h]

@[simp] theorem Memory.fresh_get (size a : Nat) : (Memory.fresh size).get a = Memory.unlisted := rfl
@[simp] theorem Memory.fresh_size (size : Nat) : (Memory.fresh size).size = size := rfl

theorem Memory.fresh_wf (size : Nat) : (Memory.fresh size).wf := by
  simp [Memory.fresh, Memory.wf]

/-- Giving a byte in bounds keeps the canonical form (log 27). -/
theorem Memory.set_wf {m : Memory} {a : Nat} (v : Byte) (h : m.wf) (ha : m.inBounds a) : (m.set a v).wf := by
  have hf : (m.cells.filter fun c => c.1 != a).Pairwise (fun c d => c.1 < d.1) := h.1.filter _
  have hm : ∀ c ∈ m.cells.filter (fun c => c.1 != a), c.2 ≠ Memory.unlisted ∧ c.1 < m.size := fun c hc =>
    h.2 c (List.mem_of_mem_filter hc)
  by_cases hv : v = Memory.unlisted
  · simpa [Memory.wf, Memory.set, setCell, hv] using ⟨hf, by simpa using hm⟩
  · refine ⟨?_, ?_⟩
    · simp only [Memory.set, setCell, hv, if_false]
      exact insertCell_pairwise a v _ (by simp) hf
    · intro c hc
      simp only [Memory.set, setCell, hv, if_false] at hc
      rcases (mem_insertCell a v _ c).1 hc with rfl | hc
      · exact ⟨hv, ha⟩
      · exact hm c hc

/-! ### The port operations, each once -/

theorem Memory.readByte_eq_some {m : Memory} {a : Nat} {v : Byte} :
    m.readByte a = some v ↔ a < m.size ∧ m.get a = v := by
  simp [Memory.readByte]

theorem Memory.readByte_eq_none {m : Memory} {a : Nat} : m.readByte a = none ↔ ¬ a < m.size := by
  simp [Memory.readByte]

theorem Memory.writeByte_eq_none {m : Memory} {a : Nat} {v : Byte} : m.writeByte a v = none ↔ ¬ a < m.size := by
  simp [Memory.writeByte]

theorem Memory.writeByte_eq_some {m t : Memory} {a : Nat} {v : Byte} :
    m.writeByte a v = some t ↔ a < m.size ∧ m.set a v = t := by
  simp [Memory.writeByte]

theorem Memory.readWord_eq_some {m : Memory} {a : Nat} {w : Word} :
    m.readWord a = some w ↔ a + 1 < m.size ∧ wordOfBytes (m.get a) (m.get (a + 1)) = w := by
  simp only [Memory.readWord, Memory.inBounds, Option.ite_none_right_eq_some, Option.some.injEq]
  constructor
  · rintro ⟨⟨_, h⟩, e⟩; exact ⟨h, e⟩
  · rintro ⟨h, e⟩; exact ⟨⟨by omega, h⟩, e⟩

theorem Memory.readWord_eq_none {m : Memory} {a : Nat} : m.readWord a = none ↔ ¬ a + 1 < m.size := by
  simp only [Memory.readWord, Memory.inBounds, ite_eq_right_iff, reduceCtorEq, imp_false]
  omega

/-- The memory a word write leaves. -/
def Memory.setWord (m : Memory) (a : Nat) (v : Word) : Memory := (m.set a (lowByte v)).set (a + 1) (highByte v)

@[simp] theorem Memory.setWord_size (m : Memory) (a : Nat) (v : Word) : (m.setWord a v).size = m.size := rfl

theorem Memory.writeWord_eq_some {m t : Memory} {a : Nat} {v : Word} :
    m.writeWord a v = some t ↔ a + 1 < m.size ∧ m.setWord a v = t := by
  simp only [Memory.writeWord, Memory.inBounds, Option.ite_none_right_eq_some, Option.some.injEq, Memory.setWord]
  constructor
  · rintro ⟨⟨_, h⟩, e⟩; exact ⟨h, e⟩
  · rintro ⟨h, e⟩; exact ⟨⟨by omega, h⟩, e⟩

theorem Memory.writeWord_eq_none {m : Memory} {a : Nat} {v : Word} : m.writeWord a v = none ↔ ¬ a + 1 < m.size := by
  simp only [Memory.writeWord, Memory.inBounds, ite_eq_right_iff, reduceCtorEq, imp_false]
  omega

theorem Memory.get_setWord (m : Memory) (a c : Nat) (v : Word) :
    (m.setWord a v).get c = if c = a then lowByte v else if c = a + 1 then highByte v else m.get c := by
  simp only [Memory.setWord, Memory.get_set]
  split <;> split <;> first | rfl | omega

/-- Reads that see the same bytes in the same bounds agree. -/
theorem Memory.readByte_congr {m n : Memory} {a : Nat} (hs : n.size = m.size) (hg : n.get a = m.get a) :
    n.readByte a = m.readByte a := by
  simp [Memory.readByte, Memory.inBounds, hs, hg]

theorem Memory.readWord_congr {m n : Memory} {a : Nat} (hs : n.size = m.size) (h0 : n.get a = m.get a)
    (h1 : n.get (a + 1) = m.get (a + 1)) : n.readWord a = m.readWord a := by
  simp [Memory.readWord, Memory.inBounds, hs, h0, h1]

/-- The word written reads back (20_memory.md R49, R50). -/
theorem Memory.readWord_setWord {m : Memory} {a : Nat} (v : Word) (h : a + 1 < m.size) :
    (m.setWord a v).readWord a = some v := by
  refine Memory.readWord_eq_some.2 ⟨h, ?_⟩
  rw [Memory.get_setWord, Memory.get_setWord]
  simp [wordOfBytes_low_high]

/-- A word write leaves every byte but its two alone. -/
theorem Memory.readByte_setWord_other (m : Memory) {a b : Nat} (v : Word) (h0 : b ≠ a) (h1 : b ≠ a + 1) :
    (m.setWord a v).readByte b = m.readByte b :=
  Memory.readByte_congr rfl (by rw [Memory.get_setWord]; simp [h0, h1])

/-! ### Capacity and canonical form under every operation -/

theorem Memory.setWord_wf {m : Memory} {a : Nat} (v : Word) (h : m.wf) (ha : a + 1 < m.size) : (m.setWord a v).wf :=
  Memory.set_wf _ (Memory.set_wf _ h (by simp only [Memory.inBounds]; omega)) ha

theorem Memory.writeByte_wf {m t : Memory} {a : Nat} {v : Byte} (h : m.wf) (e : m.writeByte a v = some t) : t.wf := by
  obtain ⟨ha, rfl⟩ := Memory.writeByte_eq_some.1 e
  exact Memory.set_wf v h ha

theorem Memory.writeWord_wf {m t : Memory} {a : Nat} {v : Word} (h : m.wf) (e : m.writeWord a v = some t) : t.wf := by
  obtain ⟨ha, rfl⟩ := Memory.writeWord_eq_some.1 e
  exact Memory.setWord_wf v h ha

theorem Memory.writeByte_size {m t : Memory} {a : Nat} {v : Byte} (e : m.writeByte a v = some t) :
    t.size = m.size := by
  obtain ⟨_, rfl⟩ := Memory.writeByte_eq_some.1 e; rfl

theorem Memory.writeWord_size {m t : Memory} {a : Nat} {v : Word} (e : m.writeWord a v = some t) :
    t.size = m.size := by
  obtain ⟨_, rfl⟩ := Memory.writeWord_eq_some.1 e; rfl

@[simp] theorem Memory.setAll_size (m : Memory) (bytes : List Byte) (offset : Nat) :
    (m.setAll bytes offset).size = m.size := by
  induction bytes generalizing m offset with
  | nil => rfl
  | cons v rest ih => simp [Memory.setAll, ih]

theorem Memory.setAll_wf {m : Memory} (bytes : List Byte) (offset : Nat) (h : m.wf)
    (hb : offset + bytes.length ≤ m.size) : (m.setAll bytes offset).wf := by
  induction bytes generalizing m offset with
  | nil => exact h
  | cons v rest ih =>
    rw [List.length_cons] at hb
    have hin : m.inBounds offset := by show offset < m.size; omega
    exact ih (offset + 1) (Memory.set_wf v h hin) (by rw [Memory.set_size]; omega)

/-- A bulk load gives the loaded addresses their bytes and leaves every other address alone. -/
theorem Memory.get_setAll (m : Memory) (bytes : List Byte) (offset c : Nat) :
    (m.setAll bytes offset).get c =
      if offset ≤ c then (bytes[c - offset]?).getD (m.get c) else m.get c := by
  induction bytes generalizing m offset with
  | nil => simp [Memory.setAll]
  | cons v rest ih =>
    simp only [Memory.setAll, ih, Memory.get_set]
    by_cases h1 : offset + 1 ≤ c
    · have e : c - offset = (c - (offset + 1)) + 1 := by omega
      simp [h1, show offset ≤ c by omega, show c ≠ offset by omega, e]
    · by_cases h2 : c = offset
      · subst h2; simp
      · simp [h1, h2, show ¬ offset ≤ c by omega]

theorem Memory.bulkLoad_eq_some {m t : Memory} {bytes : List Byte} {offset : Nat} :
    m.bulkLoad bytes offset = some t ↔ offset + bytes.length ≤ m.size ∧ m.setAll bytes offset = t := by
  simp [Memory.bulkLoad]

theorem Memory.bulkLoad_wf {m t : Memory} {bytes : List Byte} {offset : Nat} (h : m.wf)
    (e : m.bulkLoad bytes offset = some t) : t.wf := by
  obtain ⟨hb, rfl⟩ := Memory.bulkLoad_eq_some.1 e
  exact Memory.setAll_wf bytes offset h hb

theorem Memory.writeEach_size (m : Memory) (writes : List Host.Cell) : (m.writeEach writes).size = m.size := by
  induction writes generalizing m with
  | nil => rfl
  | cons c rest ih =>
    obtain ⟨a, v⟩ := c
    rw [Memory.writeEach, ih]
    cases e : m.writeByte a v with
    | none => rfl
    | some t => exact Memory.writeByte_size e

/-- Writing a list of bytes in order gives an address in bounds the last byte the list has for it, and leaves every
other address alone (20_memory.md R48). -/
theorem Memory.get_writeEach (m : Memory) (writes : List Host.Cell) (b : Nat) :
    (m.writeEach writes).get b =
      if b < m.size then ((writes.reverse.find? fun c => c.1 == b).map fun c => c.2).getD (m.get b) else m.get b := by
  induction writes generalizing m with
  | nil => simp [Memory.writeEach]
  | cons c rest ih =>
    obtain ⟨a, v⟩ := c
    have hs : ((m.writeByte a v).getD m).size = m.size := by
      cases e : m.writeByte a v with
      | none => rfl
      | some t => exact Memory.writeByte_size e
    rw [Memory.writeEach, ih, hs]
    split
    · rename_i hb
      simp only [List.reverse_cons, List.find?_append]
      cases hf : rest.reverse.find? (fun c => c.1 == b) with
      | some d => simp
      | none =>
        by_cases hab : a = b
        · subst hab; simp [Memory.writeByte_eq_some.2 ⟨hb, rfl⟩]
        · cases e : m.writeByte a v with
          | none => simp [hab]
          | some t =>
            obtain ⟨_, rfl⟩ := Memory.writeByte_eq_some.1 e
            simp [hab, Memory.get_set_other m v (Ne.symm hab)]
    · rename_i hb
      cases e : m.writeByte a v with
      | none => rfl
      | some t =>
        obtain ⟨ha, rfl⟩ := Memory.writeByte_eq_some.1 e
        exact Memory.get_set_other m v (by omega)

theorem Memory.writeEach_wf {m : Memory} (writes : List Host.Cell) (h : m.wf) : (m.writeEach writes).wf := by
  induction writes generalizing m with
  | nil => exact h
  | cons c rest ih =>
    obtain ⟨a, v⟩ := c
    rw [Memory.writeEach]
    cases e : m.writeByte a v with
    | none => exact ih h
    | some t => exact ih (Memory.writeByte_wf h e)

end Sys2Proof.Machine
end

