-- ==== Sys2Proof/Laws/Table.lean ====
section
/-! SUPPORT. The signal handler table: lookup after registration, and its canonical form. -/

namespace Sys2Proof.Machine

theorem find_insertEntry_same (id : Byte) (h : Handler) (t : HandlerTable) (hn : ∀ c ∈ t, c.1 ≠ id) :
    HandlerTable.find (insertEntry id h t) id = some h := by
  induction t with
  | nil => simp [insertEntry, HandlerTable.find]
  | cons c rest ih =>
    obtain ⟨j, g⟩ := c
    have hj : id ≠ j := fun e => hn (j, g) (by simp) e.symm
    have hr : ∀ c ∈ rest, c.1 ≠ id := fun c hc => hn c (by simp [hc])
    by_cases hl : id.toNat < j.toNat
    · simp [insertEntry, hl, HandlerTable.find]
    · simp [insertEntry, hl, HandlerTable.find, hj, ih hr]

theorem find_insertEntry_other {id k : Byte} (h : Handler) (t : HandlerTable) (hk : k ≠ id) :
    HandlerTable.find (insertEntry id h t) k = HandlerTable.find t k := by
  induction t with
  | nil => simp [insertEntry, HandlerTable.find, hk]
  | cons c rest ih =>
    obtain ⟨j, g⟩ := c
    by_cases hl : id.toNat < j.toNat
    · simp [insertEntry, hl, HandlerTable.find, hk]
    · simp [insertEntry, hl, HandlerTable.find, ih]

theorem find_filter_other {id k : Byte} (t : HandlerTable) (hk : k ≠ id) :
    HandlerTable.find (t.filter fun c => c.1 != id) k = HandlerTable.find t k := by
  induction t with
  | nil => simp
  | cons c rest ih =>
    obtain ⟨j, g⟩ := c
    by_cases hj : j = id
    · subst hj; simp [HandlerTable.find, ih, hk]
    · simp [hj, HandlerTable.find, ih]

/-- Lookup after registration (10_state.md R32). -/
theorem HandlerTable.find_define (t : HandlerTable) (id k : Byte) (h : Handler) :
    HandlerTable.find (HandlerTable.define t id h) k = if k = id then some h else HandlerTable.find t k := by
  by_cases hk : k = id
  · subst hk
    rw [if_pos rfl]
    exact find_insertEntry_same k h _ (by simp)
  · rw [if_neg hk, HandlerTable.define, find_insertEntry_other h _ hk, find_filter_other t hk]

/-- Lookup after registering entries in order: the last one for the id (R32). -/
theorem HandlerTable.find_ofEntries (entries : List (Byte × Handler)) (k : Byte) :
    HandlerTable.find (HandlerTable.ofEntries entries) k =
      (entries.reverse.find? fun c => c.1 == k).map fun c => c.2 := by
  have key : ∀ (l : List (Byte × Handler)) (t : HandlerTable),
      HandlerTable.find (l.foldl (fun t c => HandlerTable.define t c.1 c.2) t) k =
        ((l.reverse.find? fun c => c.1 == k).map fun c => c.2).orElse fun _ => HandlerTable.find t k := by
    intro l
    induction l with
    | nil => intro t; simp
    | cons c rest ih =>
      intro t
      simp only [List.foldl_cons, ih, List.reverse_cons, List.find?_append, HandlerTable.find_define]
      cases hf : rest.reverse.find? (fun c => c.1 == k) with
      | some d => simp
      | none =>
        by_cases hc : c.1 = k
        · simp [hc]
        · simp [hc, Ne.symm hc]
  rw [HandlerTable.ofEntries, key]
  cases entries.reverse.find? fun c => c.1 == k <;> rfl

theorem mem_insertEntry (id : Byte) (h : Handler) (t : HandlerTable) (d : Byte × Handler) :
    d ∈ insertEntry id h t ↔ d = (id, h) ∨ d ∈ t := by
  induction t with
  | nil => simp [insertEntry]
  | cons c rest ih =>
    by_cases hl : id.toNat < c.1.toNat
    · simp [insertEntry, hl]
    · simp only [insertEntry, hl, if_false, List.mem_cons, ih]; tauto

theorem insertEntry_wf (id : Byte) (h : Handler) (t : HandlerTable) (hn : ∀ c ∈ t, c.1 ≠ id)
    (ht : HandlerTable.wf t) : HandlerTable.wf (insertEntry id h t) := by
  induction t with
  | nil => simp [insertEntry]
  | cons c rest ih =>
    have hc : c.1 ≠ id := hn c (by simp)
    have hne : c.1.toNat ≠ id.toNat := fun e => hc (BitVec.eq_of_toNat_eq e)
    simp only [HandlerTable.wf, List.pairwise_cons] at ht
    by_cases hl : id.toNat < c.1.toNat
    · simp only [HandlerTable.wf, insertEntry, hl, if_true, List.pairwise_cons, List.mem_cons, forall_eq_or_imp]
      exact ⟨⟨trivial, fun d hd => lt_trans hl (ht.1 d hd)⟩, ht⟩
    · simp only [HandlerTable.wf, insertEntry, hl, if_false, List.pairwise_cons]
      refine ⟨fun d hd => ?_, ih (fun d hd => hn d (by simp [hd])) ht.2⟩
      rcases (mem_insertEntry id h rest d).1 hd with rfl | hd
      · show c.1.toNat < id.toNat; omega
      · exact ht.1 d hd

/-- Registration keeps the canonical form: at most one handler for an id (10_state.md R32). -/
theorem HandlerTable.define_wf {t : HandlerTable} (id : Byte) (h : Handler) (ht : HandlerTable.wf t) :
    HandlerTable.wf (HandlerTable.define t id h) :=
  insertEntry_wf id h _ (by simp) (ht.filter _)

theorem HandlerTable.ofEntries_wf (entries : List (Byte × Handler)) : HandlerTable.wf (HandlerTable.ofEntries entries) := by
  have key : ∀ (l : List (Byte × Handler)) (t : HandlerTable), HandlerTable.wf t →
      HandlerTable.wf (l.foldl (fun t c => HandlerTable.define t c.1 c.2) t) := by
    intro l
    induction l with
    | nil => intro t ht; exact ht
    | cons c rest ih => intro t ht; exact ih _ (HandlerTable.define_wf c.1 c.2 ht)
  exact key entries [] (by simp)

end Sys2Proof.Machine
end

