-- ==== Sys2Proof/Laws/Ops.lean ====
section
/-! SUPPORT. The shared operations of the instructions, each once: the arithmetic of Pc and Sp, `Push`, `Pop`, the
fetch and the trap. -/

namespace Sys2Proof.Machine

/-! ### The adders -/

theorem add16_eq (a b : Word) : add16 a b = a + b := by
  apply BitVec.eq_of_toNat_eq
  simp [add16, BitVec.toNat_add]

theorem addTwo_eq (a : Word) : addTwo a = a + 2#16 := rfl

theorem subTwo_eq (a : Word) : subTwo a = a - 2#16 := rfl

@[simp] theorem addTwo_subTwo (a : Word) : addTwo (subTwo a) = a := by rw [addTwo_eq, subTwo_eq]; simp

@[simp] theorem subTwo_addTwo (a : Word) : subTwo (addTwo a) = a := by rw [addTwo_eq, subTwo_eq]; simp

/-! ### Push -/

/-- The machine a successful `Push(v)` leaves (40_control_unit.md R107). -/
def State.pushed (s : State) (v : Word) : State :=
  { s with mem := s.mem.setWord s.pushAddr.toNat v }.setReg .sp (addTwo s.pushAddr)

/-- Everything `Push(v)` can do (R107). -/
theorem State.push_cases (s : State) (v : Word) :
    (s.pushAddr.toNat + 1 < s.mem.size ∧ s.push v = .ok (s.pushed v)) ∨
      (¬ s.pushAddr.toNat + 1 < s.mem.size ∧ s.push v = .error (.writeFault s.pushAddr)) := by
  by_cases h : s.pushAddr.toNat + 1 < s.mem.size
  · refine .inl ⟨h, ?_⟩
    simp only [State.push, Memory.writeWord_eq_some.2 ⟨h, rfl⟩]
    rfl
  · refine .inr ⟨h, ?_⟩
    simp only [State.push, Memory.writeWord_eq_none.2 h]

theorem State.push_ok {s : State} (v : Word) (h : s.pushAddr.toNat + 1 < s.mem.size) : s.push v = .ok (s.pushed v) := by
  rcases s.push_cases v with ⟨_, e⟩ | ⟨h', _⟩
  · exact e
  · exact absurd h h'

theorem State.pushResult_cases (s : State) (v : Word) :
    (s.pushAddr.toNat + 1 < s.mem.size ∧ s.pushResult v = .ok (s.pushed v)) ∨
      (¬ s.pushAddr.toNat + 1 < s.mem.size ∧ s.pushResult v = .err (.writeFault s.pushAddr) s) := by
  rcases s.push_cases v with ⟨h, e⟩ | ⟨h, e⟩
  · exact .inl ⟨h, by simp [State.pushResult, e]⟩
  · exact .inr ⟨h, by simp [State.pushResult, e]⟩

@[simp] theorem State.pushed_halt (s : State) (v : Word) : (s.pushed v).halt = s.halt := rfl
@[simp] theorem State.pushed_handlers (s : State) (v : Word) : (s.pushed v).handlers = s.handlers := rfl
@[simp] theorem State.pushed_run (s : State) (v : Word) : (s.pushed v).run = s.run := rfl
@[simp] theorem State.pushed_freeIndex (s : State) (v : Word) : (s.pushed v).freeIndex = s.freeIndex := rfl
@[simp] theorem State.pushed_mem (s : State) (v : Word) :
    (s.pushed v).mem = s.mem.setWord s.pushAddr.toNat v := rfl
@[simp] theorem State.pushed_sp (s : State) (v : Word) : (s.pushed v).getReg .sp = addTwo s.pushAddr :=
  State.getReg_setReg_same _ _ _

theorem State.pushed_other (s : State) (v : Word) {q : Reg} (h : q ≠ .sp) : (s.pushed v).getReg q = s.getReg q := by
  rw [State.pushed, State.getReg_setReg_other _ _ h]; rfl

/-! ### Pop -/

/-- Everything `Pop()` can do (R108). -/
theorem State.pop_cases (s : State) :
    (s.popAddr.toNat + 1 < s.mem.size ∧
        s.pop = .ok (wordOfBytes (s.mem.get s.popAddr.toNat) (s.mem.get (s.popAddr.toNat + 1)),
          s.setReg .sp s.popAddr)) ∨
      (¬ s.popAddr.toNat + 1 < s.mem.size ∧ s.pop = .error (.readFault s.popAddr)) := by
  by_cases h : s.popAddr.toNat + 1 < s.mem.size
  · refine .inl ⟨h, ?_⟩
    simp only [State.pop, Memory.readWord_eq_some.2 ⟨h, rfl⟩]
  · refine .inr ⟨h, ?_⟩
    simp only [State.pop, Memory.readWord_eq_none.2 h]

/-- `Pop` undoes `Push`: the value and the stack pointer come back (10_state.md R28). -/
theorem State.pop_pushed {s : State} {v : Word} (h : s.pushAddr.toNat + 1 < s.mem.size) :
    (s.pushed v).pop = .ok (v, (s.pushed v).setReg .sp (s.getReg .sp)) := by
  have ha : (s.pushed v).popAddr = s.getReg .sp := by simp [State.popAddr, State.pushAddr]
  rcases (s.pushed v).pop_cases with ⟨_, e⟩ | ⟨h', _⟩
  · rw [e, ha]
    have hw : wordOfBytes ((s.pushed v).mem.get (s.getReg .sp).toNat) ((s.pushed v).mem.get ((s.getReg .sp).toNat + 1)) =
        v := by
      rw [State.pushed_mem, Memory.get_setWord, Memory.get_setWord]
      simp [State.pushAddr, wordOfBytes_low_high]
    rw [hw]
  · rw [ha, State.pushed_mem, Memory.setWord_size] at h'
    exact absurd h h'

/-! ### Fetch -/

theorem State.fetch_eq_none {s : State} : s.fetch = none ↔ ¬ (s.getReg .pc).toNat + 1 < s.mem.size :=
  Memory.readWord_eq_none

theorem State.fetch_eq_some {s : State} {w : Word} :
    s.fetch = some w ↔ (s.getReg .pc).toNat + 1 < s.mem.size ∧
      wordOfBytes (s.mem.get (s.getReg .pc).toNat) (s.mem.get ((s.getReg .pc).toNat + 1)) = w :=
  Memory.readWord_eq_some

/-! ### The trap -/

theorem State.signalTrap_unknown {s : State} {id : Byte} (f : Handler → State → Result)
    (h : HandlerTable.find s.handlers id = none) : s.signalTrap id f = .err (.unknownSignal id) s := by
  simp [State.signalTrap, State.trapHandler, h]

theorem State.signalTrap_known {s : State} {id : Byte} {g : Handler} (f : Handler → State → Result)
    (h : HandlerTable.find s.handlers id = some g) : s.signalTrap id f = f g s := by
  simp [State.signalTrap, State.trapHandler, h]

end Sys2Proof.Machine
end

