-- ==== Sys2Proof/Laws/Handlers.lean ====
section
/-! SUPPORT. What a handler can do, once: a property that every port operation keeps, and that a nested step keeps,
is a property a handler keeps. -/

namespace Sys2Proof.Machine

/-- A property of states that every operation of a handler keeps (44_signal.md R151). -/
structure KeptByPorts (P : State → Prop) : Prop where
  setReg : ∀ s r v, P s → P (s.setReg r v)
  writeByte : ∀ s a v m, s.mem.writeByte a v = some m → P s → P (s.withMem m)
  writeWord : ∀ s a v m, s.mem.writeWord a v = some m → P s → P (s.withMem m)
  setHalt : ∀ (s : State) v, P s → P { s with halt := v }
  defineHandler : ∀ s id h, P s → P (s.defineHandler id h)
  apply : ∀ (o : HandlerOutcome) s, P s → P (o.apply s).state

/-- The induction over a handler, packaged once. -/
theorem runHandler_keeps {P : State → Prop} (hp : KeptByPorts P) {nested : State → Result}
    (hn : ∀ s, P s → P (nested s).state) (h : Handler) :
    ∀ (last : Option EngineError) (s : State), P s → P (runHandler nested h last s).state := by
  induction h with
  | returnOk => intro last s hs; exact hs
  | returnErr e => intro last s hs; exact hs
  | returnStepResult => intro last s hs; cases last <;> exact hs
  | setRegister r v next ih => intro last s hs; exact ih last _ (hp.setReg s r v hs)
  | copyRegister dst src next ih => intro last s hs; exact ih last _ (hp.setReg s dst _ hs)
  | ifRegister r v yes no ihy ihn =>
    intro last s hs
    simp only [runHandler]
    split
    · exact ihy last s hs
    · exact ihn last s hs
  | ifHalt yes no ihy ihn =>
    intro last s hs
    simp only [runHandler]
    split
    · exact ihy last s hs
    · exact ihn last s hs
  | loadByte r p onOk onFail iho ihf =>
    intro last s hs
    simp only [runHandler]
    split
    · exact ihf last s hs
    · exact iho last _ (hp.setReg s r _ hs)
  | loadWord r p onOk onFail iho ihf =>
    intro last s hs
    simp only [runHandler]
    split
    · exact ihf last s hs
    · exact iho last _ (hp.setReg s r _ hs)
  | writeByte p v onOk onFail iho ihf =>
    intro last s hs
    simp only [runHandler]
    split
    · exact ihf last s hs
    · exact iho last _ (hp.writeByte s _ _ _ ‹_› hs)
  | writeWord p v onOk onFail iho ihf =>
    intro last s hs
    simp only [runHandler]
    split
    · exact ihf last s hs
    · exact iho last _ (hp.writeWord s _ _ _ ‹_› hs)
  | storeByte p src onOk onFail iho ihf =>
    intro last s hs
    simp only [runHandler]
    split
    · exact ihf last s hs
    · exact iho last _ (hp.writeByte s _ _ _ ‹_› hs)
  | storeWord p src onOk onFail iho ihf =>
    intro last s hs
    simp only [runHandler]
    split
    · exact ihf last s hs
    · exact iho last _ (hp.writeWord s _ _ _ ‹_› hs)
  | setHalt v next ih => intro last s hs; exact ih last _ (hp.setHalt s v hs)
  | defineHandler id g next ihg ih => intro last s hs; exact ih last _ (hp.defineHandler s id g hs)
  | step onOk onErr iho ihe =>
    intro last s hs
    have ht := hn s hs
    cases hr : nested s with
    | ok t => rw [hr] at ht; simpa only [runHandler, hr] using iho none t ht
    | err e t => rw [hr] at ht; simpa only [runHandler, hr] using ihe (some e) t ht
  | unknown key => intro last s hs; exact hp.apply _ s hs

/-- The run state belongs to the control unit: no handler touches it (40_control_unit.md R100). -/
theorem HandlerOutcome.apply_run (o : HandlerOutcome) (s : State) : (o.apply s).state.run = s.run := by
  unfold HandlerOutcome.apply; cases o.result <;> rfl

theorem HandlerOutcome.apply_size (o : HandlerOutcome) (s : State) : (o.apply s).state.mem.size = s.mem.size := by
  unfold HandlerOutcome.apply; cases o.result <;> exact Memory.writeEach_size _ _

/-- The outcome of an unknown handler keeps memory and handler table in their canonical forms (log 22, 27). -/
theorem HandlerOutcome.apply_wf (o : HandlerOutcome) {s : State} (h : s.mem.wf) :
    (o.apply s).state.mem.wf ∧ HandlerTable.wf (o.apply s).state.handlers := by
  unfold HandlerOutcome.apply
  cases o.result <;> exact ⟨Memory.writeEach_wf _ h, HandlerTable.ofEntries_wf _⟩

/-- No operation of a handler changes the capacity or the run state. -/
theorem keptByPorts_size_run (n : Nat) (r : RunState) : KeptByPorts fun s => s.mem.size = n ∧ s.run = r where
  setReg := fun _ _ _ h => h
  writeByte := fun _ _ _ _ e h => ⟨(Memory.writeByte_size e).trans h.1, h.2⟩
  writeWord := fun _ _ _ _ e h => ⟨(Memory.writeWord_size e).trans h.1, h.2⟩
  setHalt := fun _ _ h => h
  defineHandler := fun _ _ _ h => h
  apply := fun o s h => ⟨(o.apply_size s).trans h.1, (o.apply_run s).trans h.2⟩

/-- Every operation of a handler keeps memory and handler table in their canonical forms (log 27). -/
theorem keptByPorts_wf : KeptByPorts fun s => s.mem.wf ∧ HandlerTable.wf s.handlers where
  setReg := fun _ _ _ h => h
  writeByte := fun _ _ _ _ e h => ⟨Memory.writeByte_wf h.1 e, h.2⟩
  writeWord := fun _ _ _ _ e h => ⟨Memory.writeWord_wf h.1 e, h.2⟩
  setHalt := fun _ _ h => h
  defineHandler := fun _ id g h => ⟨h.1, HandlerTable.define_wf id g h.2⟩
  apply := fun o _ h => o.apply_wf h.1

/-! ### What each memory access of a handler can do -/

/-- A byte a handler reads, in bounds or out of bounds (20_memory.md R47, R64). -/
theorem runHandler_loadByte (nested : State → Result) (r : Reg) (p : HandlerAddr) (onOk onFail : Handler)
    (last : Option EngineError) (s : State) :
    (s.handlerAddr p < s.mem.size ∧ runHandler nested (.loadByte r p onOk onFail) last s =
        runHandler nested onOk last (s.setReg r (zext16 (s.mem.get (s.handlerAddr p))))) ∨
      (¬ s.handlerAddr p < s.mem.size ∧ runHandler nested (.loadByte r p onOk onFail) last s =
        runHandler nested onFail last s) := by
  by_cases h : s.handlerAddr p < s.mem.size
  · exact .inl ⟨h, by simp only [runHandler, Memory.readByte_eq_some.2 ⟨h, rfl⟩]⟩
  · exact .inr ⟨h, by simp only [runHandler, Memory.readByte_eq_none.2 h]⟩

/-- A word a handler reads, in bounds or out of bounds (R49, R64). -/
theorem runHandler_loadWord (nested : State → Result) (r : Reg) (p : HandlerAddr) (onOk onFail : Handler)
    (last : Option EngineError) (s : State) :
    (s.handlerAddr p + 1 < s.mem.size ∧ runHandler nested (.loadWord r p onOk onFail) last s =
        runHandler nested onOk last
          (s.setReg r (wordOfBytes (s.mem.get (s.handlerAddr p)) (s.mem.get (s.handlerAddr p + 1))))) ∨
      (¬ s.handlerAddr p + 1 < s.mem.size ∧ runHandler nested (.loadWord r p onOk onFail) last s =
        runHandler nested onFail last s) := by
  by_cases h : s.handlerAddr p + 1 < s.mem.size
  · exact .inl ⟨h, by simp only [runHandler, Memory.readWord_eq_some.2 ⟨h, rfl⟩]⟩
  · exact .inr ⟨h, by simp only [runHandler, Memory.readWord_eq_none.2 h]⟩

/-- A byte a handler writes, in bounds or out of bounds (R48, R64). -/
theorem runHandler_writeByte (nested : State → Result) (p : HandlerAddr) (v : Byte) (onOk onFail : Handler)
    (last : Option EngineError) (s : State) :
    (s.handlerAddr p < s.mem.size ∧ runHandler nested (.writeByte p v onOk onFail) last s =
        runHandler nested onOk last (s.withMem (s.mem.set (s.handlerAddr p) v))) ∨
      (¬ s.handlerAddr p < s.mem.size ∧ runHandler nested (.writeByte p v onOk onFail) last s =
        runHandler nested onFail last s) := by
  by_cases h : s.handlerAddr p < s.mem.size
  · exact .inl ⟨h, by simp only [runHandler, Memory.writeByte_eq_some.2 ⟨h, rfl⟩]⟩
  · exact .inr ⟨h, by simp only [runHandler, Memory.writeByte_eq_none.2 h]⟩

/-- A word a handler writes, in bounds or out of bounds (R50, R64). -/
theorem runHandler_writeWord (nested : State → Result) (p : HandlerAddr) (v : Word) (onOk onFail : Handler)
    (last : Option EngineError) (s : State) :
    (s.handlerAddr p + 1 < s.mem.size ∧ runHandler nested (.writeWord p v onOk onFail) last s =
        runHandler nested onOk last (s.withMem (s.mem.setWord (s.handlerAddr p) v))) ∨
      (¬ s.handlerAddr p + 1 < s.mem.size ∧ runHandler nested (.writeWord p v onOk onFail) last s =
        runHandler nested onFail last s) := by
  by_cases h : s.handlerAddr p + 1 < s.mem.size
  · exact .inl ⟨h, by simp only [runHandler, Memory.writeWord_eq_some.2 ⟨h, rfl⟩]⟩
  · exact .inr ⟨h, by simp only [runHandler, Memory.writeWord_eq_none.2 h]⟩

/-- A register's low byte stored is that byte written. -/
theorem runHandler_storeByte (nested : State → Result) (p : HandlerAddr) (src : Reg) (onOk onFail : Handler)
    (last : Option EngineError) (s : State) :
    runHandler nested (.storeByte p src onOk onFail) last s =
      runHandler nested (.writeByte p (lowByte (s.getReg src)) onOk onFail) last s := rfl

/-- A register stored is its value written. -/
theorem runHandler_storeWord (nested : State → Result) (p : HandlerAddr) (src : Reg) (onOk onFail : Handler)
    (last : Option EngineError) (s : State) :
    runHandler nested (.storeWord p src onOk onFail) last s =
      runHandler nested (.writeWord p (s.getReg src) onOk onFail) last s := rfl

end Sys2Proof.Machine
end

