-- ==== Sys2Proof/Laws/PerInstr.lean ====
section
/-! SUPPORT. Statements about every instruction as syntax, one lemma per constructor of `Instr`. -/

namespace Sys2Proof.Laws.OpcodeByte

/-- The low byte of the encoded word is the instruction's opcode byte, and the opcode-byte decoder recognises it
(30_encoding.md R71, R77, R81). -/
def Statement (i : Instr) : Prop :=
  opcodeField (encode i) = i.opcode.byte ∧ OpCode.ofByte (opcodeField (encode i)) = some i.opcode

/-- The opcode byte of a word of fields (R71). -/
theorem opcodeField_wordOfFields (hi lo : BitVec 4) (op : OpCode) : opcodeField (wordOfFields hi lo op) = op.byte := by
  apply BitVec.eq_of_toNat_eq
  have := op.byte.isLt
  rw [opcodeField_toNat, wordOfFields_toNat]
  omega

/-- The opcode byte of a word with an immediate (R72, format I). -/
theorem opcodeField_imm (imm : Byte) (op : OpCode) : opcodeField (imm ++ op.byte) = op.byte := by
  apply BitVec.eq_of_toNat_eq
  have h := append_toNat imm op.byte
  have := op.byte.isLt
  rw [opcodeField_toNat]
  omega

/-- The second clause follows from the first. -/
theorem of_byte {i : Instr} (h : opcodeField (encode i) = i.opcode.byte) : Statement i :=
  ⟨h, by rw [h, OpCode.ofByte_byte]⟩

theorem nop : Statement .nop := of_byte (opcodeField_wordOfFields _ _ _)
theorem push (imm : Byte) : Statement (.push imm) := of_byte (opcodeField_imm imm .push)
theorem popRegister (r : Reg) : Statement (.popRegister r) := of_byte (opcodeField_wordOfFields _ _ _)
theorem pushRegister (r : Reg) : Statement (.pushRegister r) := of_byte (opcodeField_wordOfFields _ _ _)
theorem jmpReg (field : BitVec 4) : Statement (.jmpReg field) := of_byte (opcodeField_wordOfFields _ _ _)
theorem jmpImm : Statement .jmpImm := of_byte (opcodeField_wordOfFields _ _ _)
theorem signal (id : Byte) : Statement (.signal id) := of_byte (opcodeField_imm id .signal)
theorem addStack : Statement .addStack := of_byte (opcodeField_wordOfFields _ _ _)
theorem addRegister (r1 r2 : Reg) : Statement (.addRegister r1 r2) := of_byte (opcodeField_wordOfFields _ _ _)

end Sys2Proof.Laws.OpcodeByte
end

