-- ==== Sys2Proof/Laws/Step.lean ====
section
/-! SUPPORT. Everything `exec`, the step port and the step can do, once. -/

namespace Sys2Proof.Machine

/-! ### The EXECUTE phase -/

/-- `exec` is `runInstr` with the control unit's reaction. -/
theorem exec_eq (i : Instr) (s : State) : exec i s = (runInstr runSignal i s).conclude := by cases i <;> rfl

/-- A Signal whose id has a handler (44_signal.md R150). -/
theorem exec_signal_known {id : Byte} {h : Handler} {s : State} (e : HandlerTable.find s.handlers id = some h) :
    exec (.signal id) s = (runHandler (nestedStep Config.nestingLimit) h none s).conclude := by
  rw [exec_eq]; simp only [runInstr, runSignal, State.signalTrap_known _ e]

/-- A Signal whose id has no handler (R150). -/
theorem exec_signal_unknown {id : Byte} {s : State} (e : HandlerTable.find s.handlers id = none) :
    exec (.signal id) s = .next (s.takeError (.unknownSignal id)) := by
  rw [exec_eq]; simp only [runInstr, runSignal, State.signalTrap_unknown _ e, Result.conclude_err]

/-- An instruction that is no Signal does the same whatever Signal does, in a nested step too. -/
theorem runInstr_noSignal {i : Instr} (h : i.isSignal = false) (signal signal' : Byte → State → Result) (s : State) :
    runInstr signal i s = runInstr signal' i s := by
  cases i <;> first | rfl | cases h

/-! ### A step a handler calls (44_signal.md R152) -/

theorem nestedStep_noFetch (depth : Nat) {s : State} (h : s.fetch = none) :
    nestedStep (depth + 1) s = .err (.pcFault (s.getReg .pc)) s := by
  simp [nestedStep, fourPhases, h]

theorem nestedStep_noDecode (depth : Nat) {s : State} {w : Word} {e : EngineError} (h : s.fetch = some w)
    (hd : decode w = .error e) : nestedStep (depth + 1) s = .err e s.advance := by
  simp [nestedStep, fourPhases, h, hd]

/-- A nested step of an instruction that is no Signal is the step the run loop would issue. -/
theorem nestedStep_noSignal (depth : Nat) {s : State} {w : Word} {i : Instr} (h : s.fetch = some w)
    (hd : decode w = .ok i) (hi : i.isSignal = false) : nestedStep (depth + 1) s = runInstr runSignal i s.advance := by
  simp only [nestedStep, fourPhases, h, hd]
  exact runInstr_noSignal hi _ _ _

/-- A nested step of a Signal enters that Signal's handler the same way, one level further in (60_exceptions.md R189). -/
theorem nestedStep_signal (depth : Nat) {s : State} {w : Word} {k : Byte} (h : s.fetch = some w)
    (hd : decode w = .ok (.signal k)) :
    nestedStep (depth + 1) s = s.advance.signalTrap k fun g => runHandler (nestedStep depth) g none := by
  simp only [nestedStep, fourPhases, h, hd]
  rfl

/-! ### The step port -/

theorem stepPort_noFetch {s : State} (h : s.fetch = none) : stepPort s = .err (.pcFault (s.getReg .pc)) s := by
  simp [stepPort, fourPhases, h]

theorem stepPort_noDecode {s : State} {w : Word} {e : EngineError} (h : s.fetch = some w) (hd : decode w = .error e) :
    stepPort s = .err e s.advance := by
  simp [stepPort, fourPhases, h, hd]

theorem stepPort_decoded {s : State} {w : Word} {i : Instr} (h : s.fetch = some w) (hd : decode w = .ok i) :
    stepPort s = runInstr runSignal i s.advance := by
  simp [stepPort, fourPhases, h, hd]

/-- Everything the four phases can do (40_control_unit.md R101). -/
theorem fourPhases_cases (signal : Byte → State → Result) (s : State) :
    (s.fetch = none ∧ fourPhases signal s = .err (.pcFault (s.getReg .pc)) s) ∨
      (∃ w e, s.fetch = some w ∧ decode w = .error e ∧ fourPhases signal s = .err e s.advance) ∨
      (∃ w i, s.fetch = some w ∧ decode w = .ok i ∧ fourPhases signal s = runInstr signal i s.advance) := by
  cases hf : s.fetch with
  | none => exact .inl ⟨rfl, by simp [fourPhases, hf]⟩
  | some w =>
    cases hd : decode w with
    | error e => exact .inr (.inl ⟨w, e, rfl, hd, by simp [fourPhases, hf, hd]⟩)
    | ok i => exact .inr (.inr ⟨w, i, rfl, hd, by simp [fourPhases, hf, hd]⟩)

/-- The run loop issues exactly the step of the step port. -/
theorem issueStep_eq (s : State) : issueStep s = (stepPort s).conclude := by
  rcases fourPhases_cases runSignal s with ⟨hf, hr⟩ | ⟨w, e, hf, hd, hr⟩ | ⟨w, i, hf, hd, hr⟩
  · rw [stepPort, hr]; simp [issueStep, hf]
  · rw [stepPort, hr]; simp [issueStep, hf, hd]
  · rw [stepPort, hr]; simp [issueStep, hf, hd, exec_eq]

/-! ### The step -/

theorem step_running {s : State} (hr : s.run = .running) (hh : s.halt = false) : step s = issueStep s := by
  simp [step, hr, hh]

/-- Everything a step of the machine can do (R100). -/
theorem step_cases {s t : State} (h : step s = .next t) :
    (s.run = .halted ∧ t = s) ∨
      (s.run = .running ∧ s.halt = true ∧ t = { s with run := .halted }) ∨
      (s.run = .running ∧ s.halt = false ∧ (stepPort s).conclude = .next t) := by
  unfold step at h
  cases hr : s.run with
  | halted => simp [hr] at h; exact .inl ⟨rfl, h.symm⟩
  | faulted e => simp [hr] at h
  | running =>
    cases hh : s.halt with
    | true => simp [hr, hh] at h; exact .inr (.inl ⟨rfl, rfl, h.symm⟩)
    | false => simp [hr, hh, issueStep_eq] at h; exact .inr (.inr ⟨rfl, rfl, h⟩)

/-! ### Properties the four phases keep -/

/-- A property that pushing, writing registers and the handlers' operations keep is kept by every instruction, for
any Signal that keeps it. -/
theorem runInstr_keeps {P : State → Prop} (hset : ∀ s r v, P s → P (s.setReg r v))
    (hpush : ∀ s v, s.pushAddr.toNat + 1 < s.mem.size → P s → P (s.pushed v)) {signal : Byte → State → Result}
    (hsig : ∀ id s, P s → P (signal id s).state) (i : Instr) (s : State) (hs : P s) : P (runInstr signal i s).state := by
  have hpr : ∀ s v, P s → P (State.pushResult s v).state := by
    intro s v hs
    rcases s.pushResult_cases v with ⟨h, e⟩ | ⟨_, e⟩
    · rw [e]; exact hpush s v h hs
    · rw [e]; exact hs
  cases i with
  | nop => exact hs
  | push imm => exact hpr s _ hs
  | pushRegister r => exact hpr s _ hs
  | jmpReg f => exact hs
  | jmpImm => exact hs
  | signal id => exact hsig id s hs
  | addRegister r1 r2 => exact hset s r1 _ hs
  | popRegister r =>
    rcases s.pop_cases with ⟨_, e⟩ | ⟨_, e⟩ <;> simp only [runInstr, runPopRegister, e]
    · exact hset _ r _ (hset s .sp _ hs)
    · exact hs
  | addStack =>
    rcases s.pop_cases with ⟨_, e⟩ | ⟨_, e⟩ <;> simp only [runInstr, runAddStack, e]
    · have h1 : P (s.setReg .sp s.popAddr) := hset s .sp _ hs
      rcases (s.setReg .sp s.popAddr).pop_cases with ⟨_, e1⟩ | ⟨_, e1⟩ <;> simp only [e1]
      · exact hpr _ _ (hset _ .sp _ h1)
      · exact h1
    · exact hs

theorem fourPhases_keeps {P : State → Prop} (hset : ∀ s r v, P s → P (s.setReg r v))
    (hpush : ∀ s v, s.pushAddr.toNat + 1 < s.mem.size → P s → P (s.pushed v)) {signal : Byte → State → Result}
    (hsig : ∀ id s, P s → P (signal id s).state) (s : State) (hs : P s) : P (fourPhases signal s).state := by
  rcases fourPhases_cases signal s with ⟨_, e⟩ | ⟨_, _, _, _, e⟩ | ⟨_, i, _, _, e⟩ <;> rw [e]
  · exact hs
  · exact hset _ _ _ hs
  · exact runInstr_keeps hset hpush hsig i _ (hset _ _ _ hs)

theorem signalTrap_keeps {P : State → Prop} (hp : KeptByPorts P) {nested : State → Result}
    (hn : ∀ s, P s → P (nested s).state) (id : Byte) (s : State) (hs : P s) :
    P (s.signalTrap id fun h => runHandler nested h none).state := by
  cases e : HandlerTable.find s.handlers id with
  | none => rw [State.signalTrap_unknown _ e]; exact hs
  | some h => rw [State.signalTrap_known _ e]; exact runHandler_keeps hp hn h none s hs

/-- The induction over the depth of nested steps, packaged once. -/
theorem nestedStep_keeps {P : State → Prop} (hp : KeptByPorts P)
    (hpush : ∀ s v, s.pushAddr.toNat + 1 < s.mem.size → P s → P (s.pushed v)) :
    ∀ depth s, P s → P (nestedStep depth s).state := by
  intro depth
  induction depth with
  | zero => intro s hs; exact hp.apply _ s hs
  | succ d ih => intro s hs; exact fourPhases_keeps hp.setReg hpush (fun id s hs => signalTrap_keeps hp ih id s hs) s hs

/-- A property that the ports and a push keep is kept by the step port, whatever instruction and handler run. -/
theorem stepPort_keeps {P : State → Prop} (hp : KeptByPorts P)
    (hpush : ∀ s v, s.pushAddr.toNat + 1 < s.mem.size → P s → P (s.pushed v)) (s : State) (hs : P s) :
    P (stepPort s).state :=
  fourPhases_keeps hp.setReg hpush (fun id s hs => signalTrap_keeps hp (nestedStep_keeps hp hpush _) id s hs) s hs

end Sys2Proof.Machine
end

