-- ==== Sys2Proof/Tests/Slice0.lean ====
section
/-! SUPPORT. Tests, their expected results taken from spec/95_test_vectors.md and the examples of the instruction rules
(each names its vector), and for every statement with hypotheses a witness that meets them. -/

namespace Sys2Proof.Tests

open Sys2Proof Sys2Proof.Machine

/-- The next state of an outcome. -/
def next? : Host.Outcome State Fault Refusal → Option State
  | .next t => some t
  | .fault _ => none
  | .refused _ => none

/-- A machine after reset with `bytes` loaded at `at_`, and Sp and Pc set. -/
def machine (sp pc : Word) (at_ : Nat) (bytes : List Byte) (size : Nat := 8192) : State :=
  let s := State.resetWith size
  ({ s with mem := (s.mem.bulkLoad bytes at_).getD s.mem }.setReg .sp sp).setReg .pc pc

/-- One step of a machine whose next word is `w`. -/
def stepOn (w : Nat) (s : State) : Option State := next? (step (s.withFetchWord 16 w))

/-! ### Well-formedness: each check refuses an ill-formed term -/

theorem test_wellFormed_refuses_jmpReg_8 : (Instr.jmpReg 8#4).wellFormed = false := by decide
theorem test_wellFormed_accepts_jmpReg_7 : (Instr.jmpReg 7#4).wellFormed = true := by decide

/-! ### Decoding: words written out from 30_encoding.md R72, R73, bit 15 first (V-DEC) -/

theorem test_decode_nop : decode 0b0000000000000000#16 = .ok .nop := by decide
theorem test_decode_nop_payload_ignored : decode 0b1111111100000000#16 = .ok .nop := by decide
theorem test_decode_push : decode 0b0000010100000001#16 = .ok (.push 0x05#8) := by decide
theorem test_decode_popRegister_flags : decode 0b0000011100000010#16 = .ok (.popRegister .flags) := by decide
theorem test_decode_popRegister_top_ignored : decode 0b1111000000000010#16 = .ok (.popRegister .a) := by decide
theorem test_decode_pushRegister_pc : decode 0b0000010100000011#16 = .ok (.pushRegister .pc) := by decide
theorem test_decode_jmpReg : decode 0b0000000100000111#16 = .ok (.jmpReg 1#4) := by decide
theorem test_decode_jmpImm : decode 0b1111111100001000#16 = .ok .jmpImm := by decide
theorem test_decode_signal : decode 0b1111000000001111#16 = .ok (.signal 0xF0#8) := by decide
theorem test_decode_addStack : decode 0b0011110000010000#16 = .ok .addStack := by decide
theorem test_decode_addRegister : decode 0b0010000100010001#16 = .ok (.addRegister .b .c) := by decide
theorem test_decode_unknownReg_r1_first : decode 0x9A11#16 = .error (.unknownReg 0xA#4) := by decide
theorem test_decode_unknownReg_r2 : decode 0x8011#16 = .error (.unknownReg 8#4) := by decide
theorem test_decode_unknownOp : decode 0x0012#16 = .error (.unknownOp 0x12#8) := by decide
theorem test_engineDecode_jmpReg : engineDecode 0x0F07#16 = .error (.unknownOp 7#8) := by decide
theorem test_engineDecode_jmpImm : engineDecode 0xFF08#16 = .error (.unknownOp 8#8) := by decide
theorem test_decodeTableWord_rows :
    [0x0000, 0x0001, 0x0002, 0x0003, 0x0007, 0x0008, 0x000F, 0x0010, 0x0011].map (decodeTableWord 16) =
      [some .nop, some (.push 0#8), some (.popRegister .a), some (.pushRegister .a), some (.jmpReg 0#4), some .jmpImm,
        some (.signal 0#8), some .addStack, some (.addRegister .a .a)] := by decide

/-! ### Memory (V-MEM) -/

/-- V-MEM-5 -/
theorem test_writeWord_odd_address :
    (((Memory.fresh 8192).writeWord 0x1001 0x1234#16).map fun m => m.cells) =
      some [(0x1001, 0x34#8), (0x1002, 0x12#8)] := by decide

/-- V-MEM-2, V-MEM-3, V-MEM-4 -/
theorem test_word_access_past_end :
    (Memory.fresh 8192).readWord 8191 = none ∧ (Memory.fresh 8192).readWord 0xFFFF = none ∧
      (Memory.fresh 8192).writeWord 8191 0x1234#16 = none := by decide

/-- V-MEM-7, V-MEM-8 -/
theorem test_bulkLoad_end :
    (Memory.fresh 8192).bulkLoad [1, 2, 3, 4, 5, 6, 7, 8] 8186 = none ∧
      (((Memory.fresh 8192).bulkLoad [1, 2, 3, 4, 5, 6] 8186).map fun m => m.readByte 8191) = some (some 6#8) := by
  decide

/-- Writing 0 over a listed byte removes its cell (log 27). -/
theorem test_write_zero_removes_cell :
    ((((Memory.fresh 16).set 3 7#8).set 5 9#8).set 3 0#8).cells = [(5, 9#8)] := by decide

/-! ### Steps -/

/-- V-NOP-2 -/
theorem test_nop : (stepOn 0xFF00 (machine 0 0x10 0 [])).map (fun t => (t.getReg .pc, t.run)) =
    some (0x12#16, .running) := by decide

/-- V-FETCH-2 -/
theorem test_fetch_miss : (next? (step (machine 0 0x2000 0 []))).map (fun t => (t.getReg .pc, t.run)) =
    some (0x2000#16, .faulted (.pcFault 0x2000#16)) := by decide

/-- V-PUSH-2: no sign extension. -/
theorem test_push_zero_extends : (stepOn 0xFF01 (machine 0x1000 0 0 [])).map
    (fun t => (t.getReg .sp, t.mem.readWord 0x1000)) = some (0x1002#16, some 0x00FF#16) := by decide

/-- V-PUSH-8: Sp wraps with 65536 bytes. -/
theorem test_push_sp_wraps : (stepOn 0x0101 (machine 0xFFFE 0 0 [] 65536)).map
    (fun t => (t.getReg .sp, t.mem.readByte 0xFFFE, t.run)) = some (0x0000#16, some 1#8, .running) := by decide

/-- V-POP-3: the popped value stays in Sp. -/
theorem test_popRegister_sp : (stepOn 0x0402 (machine 0x1002 0 0x1000 [0x34, 0x12])).map
    (fun t => (t.getReg .sp, t.getReg .pc)) = some (0x1234#16, 0x0002#16) := by decide

/-- V-POP-6 -/
theorem test_popRegister_underflow : (stepOn 0x0002 (machine 0 0x10 0 [])).map
    (fun t => (t.getReg .sp, t.getReg .pc, t.run)) =
      some (0x0000#16, 0x0012#16, .faulted (.readFault 0xFFFE#16)) := by decide

/-- V-PUSHR-2: the value before the push. -/
theorem test_pushRegister_sp : (stepOn 0x0403 (machine 0x1000 0 0 [])).map
    (fun t => (t.getReg .sp, t.mem.readWord 0x1000)) = some (0x1002#16, some 0x1000#16) := by decide

/-- V-PUSHR-3: the address of the following instruction. -/
theorem test_pushRegister_pc : (stepOn 0x0503 (machine 0x1000 0x0006 0 [])).map
    (fun t => t.mem.readWord 0x1000) = some (some 0x0008#16) := by decide

/-- V-JMP-3 -/
theorem test_jmpReg : (stepOn 0x0907 (machine 0 4 0 [])).map (fun t => (t.getReg .pc, t.run)) =
    some (0x0006#16, .faulted (.unknownOp 7#8)) := by decide

/-- V-JMP-5 -/
theorem test_jmpImm : (stepOn 0x4008 (machine 0 0 0 [])).map (fun t => (t.getReg .pc, t.run)) =
    some (0x0002#16, .faulted (.unknownOp 8#8)) := by decide

/-- V-SIG-2 -/
theorem test_signal_halt : (stepOn 0xF00F ((machine 0 0 0 []).defineHandler 0xF0#8 haltHandler)).map
    (fun t => (t.getReg .pc, t.halt, t.run)) = some (0x0002#16, true, .running) := by decide

/-- V-SIG-5: the handler's write stays beside its error. -/
theorem test_signal_error : (stepOn 0x200F ((machine 0 0 0 []).defineHandler 0x20#8
    (.setRegister .b 0x0077#16 (.returnErr (.readFault 0#16))))).map (fun t => (t.getReg .b, t.getReg .pc, t.run)) =
      some (0x0077#16, 0x0002#16, .faulted (.readFault 0#16)) := by decide

/-- R64 with R47: a handler reads the byte at the address in B (here 0xF4, the second byte of the image) into A,
zero-extended; at 8192, out of bounds, it sees the failure. -/
theorem test_handler_loadByte :
    (stepOn 0x200F (((machine 0 0x10 0 [0x02, 0xF4]).setReg .b 1#16).defineHandler 0x20#8
        (.loadByte .a (.inReg .b) .returnOk (.returnErr .unknownFile)))).map (fun t => (t.getReg .a, t.run)) =
      some (0x00F4#16, .running) ∧
    (stepOn 0x200F ((machine 0 0x10 0 []).defineHandler 0x20#8
        (.loadByte .a (.fixed 8192) .returnOk (.returnErr .unknownFile)))).map (fun t => (t.getReg .a, t.run)) =
      some (0#16, .faulted .unknownFile) := by decide

/-- R64 with R50: a handler stores a register's word at a fixed address, low byte first. -/
theorem test_handler_storeWord :
    (stepOn 0x200F (((machine 0 0x10 0 []).setReg .c 0x1234#16).defineHandler 0x20#8
        (.storeWord (.fixed 0x101) .c .returnOk .returnOk))).map (fun t => (t.mem.readByte 0x101, t.mem.readByte 0x102)) =
      some (some 0x34#8, some 0x12#8) := by decide

/-- R189: a Signal in a nested step runs its own handler and returns to the outer one. -/
theorem test_nested_signal :
    (stepOn 0x300F (((machine 0 0 2 [0x0F, 0x31]).defineHandler 0x31#8 (.setRegister .a 7#16 (.returnErr .unknownFile))).defineHandler
        0x30#8 (.step .returnOk (.copyRegister .b .a .returnOk)))).map
      (fun t => (t.getReg .b, t.getReg .pc, t.run)) = some (7#16, 4#16, .running) := by decide

/-- R152: a handler that runs a step executes the word after the Signal, here PushRegister Pc of V-PUSHR-3's shape. -/
theorem test_nested_step : (next? (step ((machine 0x1000 0 0 [0x0F, 0x30, 0x03, 0x05]).defineHandler 0x30#8
    (.step .returnOk .returnStepResult)))).map (fun t => (t.getReg .pc, t.mem.readWord 0x1000)) =
      some (0x0004#16, some 0x0004#16) := by decide

/-- V-ADDS-4 -/
theorem test_addStack_wraps : (stepOn 0x0010 (machine 0x1004 0 0x1000 [0x00, 0x80, 0x00, 0x80])).map
    (fun t => (t.getReg .sp, t.mem.readWord 0x1000, t.mem.readWord 0x1002)) =
      some (0x1002#16, some 0#16, some 0x8000#16) := by decide

/-- V-ADDS-5: the second Pop faults, the first one stays. -/
theorem test_addStack_second_pop : (stepOn 0x0010 (machine 2 0 0 [])).map (fun t => (t.getReg .sp, t.run)) =
    some (0x0000#16, .faulted (.readFault 0xFFFE#16)) := by decide

/-- V-ADDR-1: r1 is the destination. -/
theorem test_addRegister : (stepOn 0x2111 (((machine 0 0 0 []).setReg .b 7#16).setReg .c 2#16)).map
    (fun t => (t.getReg .b, t.getReg .c)) = some (9#16, 2#16) := by decide

/-- V-ADDR-6: relative to the following instruction. -/
theorem test_addRegister_pc : (stepOn 0x1511 ((machine 0 0x0A 0 []).setReg .b 0xFFFE#16)).map
    (fun t => t.getReg .pc) = some 0x000A#16 := by decide

/-- R100: halt is tested before a step; FAULTED is final. -/
theorem test_run_loop_stops :
    (next? (step { machine 0 0 0 [] with halt := true })).map (fun t => (t.getReg .pc, t.run)) =
        some (0#16, .halted) ∧
      (next? (step { machine 0 0 0 [] with run := .faulted (.pcFault 0#16) })).isNone = true := by decide

/-- W6's start: a launch of the reference host. -/
theorem test_launch : (next? (launch { referenceLaunch [0x0F, 0xF0] with spInit := 0x1000#16 })).map
    (fun s => (s.fetch, s.getReg .sp, (HandlerTable.find s.handlers 0xF0#8).isSome)) =
      some (some 0xF00F#16, 0x1000#16, true) := by decide

/-! ### Toolchain syntax (W1, V-ASM) -/

/-- W1 -/
theorem test_assemble_w1 : assemble "Push $05\nPush $03\nAddStack\nPopRegister A".toList =
    .ok [0x01, 0x05, 0x01, 0x03, 0x10, 0x00, 0x02, 0x00] := by decide

/-- V-ASM-2, V-ASM-4, V-ASM-5, V-ASM-6, V-ASM-10, V-ASM-11 -/
theorem test_assemble_lines : ["Push %101", "Push $ff", "   Push     7  ", "; Push 7", "JmpReg A", "AddRegister A A"].map
      (fun l => assemble l.toList) =
    [.ok [0x01, 0x05], .ok [0x01, 0xFF], .ok [0x01, 0x07], .ok [], .ok [0x07, 0x00], .ok [0x11, 0x00]] := by decide

/-- V-ASM-12, V-ASM-15, V-ASM-16, V-ASM-18, V-ASM-23, V-ASM-26, V-ASM-27 -/
theorem test_assemble_errors :
    ["Push 256", "Push $", "push $05", "PopRegister B", "JmpImm 5", "push 256", "Push 256 1"].map
      (fun l => assemble l.toList) =
    [.error .parseErr, .error .parseErr, .error .unknownOpCode, .error .unknownReg, .error .lenErr,
      .error .unknownOpCode, .error .lenErr] := by decide

/-! ### Witnesses: a state and operands that meet the hypotheses of each statement that has them -/

theorem witness_DecodeOfEncodeGivesTheInstruction :
    (Instr.jmpReg 7#4).WellFormed ∧ (Instr.addRegister .flags .flags).WellFormed ∧
      (Instr.addRegister .flags .flags).executed = true := by decide

theorem witness_EncodeOfDecodeClearsOnlyUnusedBits :
    decode 0xF702#16 = .ok (.popRegister .flags) ∧ (Instr.popRegister .flags).WellFormed := by decide

theorem witness_UnusedPayloadBitsAreIgnored :
    OpCode.ofByte (opcodeField 0xF002#16) = some .popRegister ∧
      0xF002#16 &&& usedBits .popRegister = 0x0002#16 &&& usedBits .popRegister := by decide

theorem witness_UnassignedOpcodeBytesAreUnknownOp :
    [0xAB04#16, 0xAB06#16, 0xAB09#16, 0xAB0E#16, 0xAB12#16, 0xABFF#16].map (fun w => (opcodeField w).toNat) =
      [0x04, 0x06, 0x09, 0x0E, 0x12, 0xFF] ∧
    ((machine 0 0x10 0x10 [0xFF, 0xAB]).run = .running ∧ (machine 0 0x10 0x10 [0xFF, 0xAB]).halt = false) ∧
      (machine 0 0x10 0x10 [0xFF, 0xAB]).mem.readWord 0x10 = some 0xABFF#16 := by decide

theorem witness_RegisterFieldsSelectInOrderOrFail :
    ((opcodeField 0x0702#16 = 0x02#8 ∧ (regField 0x0702#16).toNat < 8) ∧
      (opcodeField 0x0803#16 = 0x03#8 ∧ 8 ≤ (regField 0x0803#16).toNat)) ∧
    (opcodeField 0x7711#16 = 0x11#8 ∧ (regField 0x7711#16).toNat < 8 ∧ (reg2Field 0x7711#16).toNat < 8) ∧
    (opcodeField 0x8711#16 = 0x11#8 ∧ 8 ≤ (reg2Field 0x8711#16).toNat) := by decide

theorem witness_DecodeErrorsReportFirstBadField :
    (opcodeField 0x0802#16 = 0x02#8 ∧ 8 ≤ (regField 0x0802#16).toNat) ∧
      (opcodeField 0x0F03#16 = 0x03#8 ∧ 8 ≤ (regField 0x0F03#16).toNat) ∧
      (opcodeField 0x8811#16 = 0x11#8 ∧ 8 ≤ (regField 0x8811#16).toNat) ∧
      (opcodeField 0x8711#16 = 0x11#8 ∧ (regField 0x8711#16).toNat < 8 ∧ 8 ≤ (reg2Field 0x8711#16).toNat) ∧
      opcodeField 0xFF07#16 = 0x07#8 ∧ opcodeField 0xFF08#16 = 0x08#8 ∧
      [0xAB04#16, 0xAB06#16, 0xAB09#16, 0xAB0E#16, 0xAB12#16, 0xABFF#16].map (fun w => (opcodeField w).toNat) =
        [0x04, 0x06, 0x09, 0x0E, 0x12, 0xFF] := by decide

theorem witness_word_access_bounds :
    8190 + 1 < (Memory.fresh 8192).size ∧ ¬ 8191 + 1 < (Memory.fresh 8192).size ∧
      8191 < (Memory.fresh 8192).size ∧ ¬ 8192 < (Memory.fresh 8192).size := by decide

theorem witness_WordAccessAtTopAddressFails : (Memory.fresh 65536).sizeLegal := by decide

theorem witness_BulkLoadIsAllOrNothing :
    8186 + [1#8, 2#8, 3#8, 4#8, 5#8, 6#8].length ≤ (Memory.fresh 8192).size ∧
      [1#8, 2#8, 3#8, 4#8, 5#8, 6#8][5]? = some 6#8 ∧
      ¬ 8187 + [1#8, 2#8, 3#8, 4#8, 5#8, 6#8].length ≤ (Memory.fresh 8192).size := by decide

theorem witness_LaunchPlacesImageHandlersAndSp :
    ∃ l : Launch, 2 ≤ l.memSize ∧ l.memSize ≤ 65536 ∧ l.image.length ≤ l.memSize ∧ l.image[1]? = some 0xF0#8 :=
  ⟨{ referenceLaunch [0x0F, 0xF0] with memSize := 2 }, by decide⟩

theorem witness_LaunchRefusesImageThatDoesNotFit :
    ∃ l : Launch, 2 ≤ l.memSize ∧ l.memSize ≤ 65536 ∧ l.memSize < l.image.length :=
  ⟨{ referenceLaunch [0x0F, 0xF0, 0x00] with memSize := 2 }, by decide⟩

/-- The machine of most witnesses: RUNNING, halt false, the word 0x0402 (PopRegister Sp) at Pc = 0. -/
def ready : State := machine 0x1002 0 0 [0x02, 0x04]

theorem witness_StepRunsTheDecodedInstruction :
    ready.Ready ∧ ready.Fetches 0x0402#16 ∧ decode 0x0402#16 = .ok (.popRegister .sp) :=
  ⟨⟨rfl, rfl⟩, show ready.mem.readWord 0 = some 0x0402#16 by decide, by decide⟩

theorem witness_FetchMissRaisesPcFault :
    (machine 0 0x1FFF 0 []).Ready ∧ ¬ ((machine 0 0x1FFF 0 []).getReg .pc).toNat + 1 < (machine 0 0x1FFF 0 []).mem.size :=
  ⟨⟨rfl, rfl⟩, by decide⟩

theorem witness_DecodeFaultLeavesOnlyPcAdvanced :
    (machine 0 0 0 [0x07, 0x0F]).Ready ∧ (machine 0 0 0 [0x07, 0x0F]).Fetches 0x0F07#16 ∧
      engineDecode 0x0F07#16 = .error (.unknownOp 0x07#8) :=
  ⟨⟨rfl, rfl⟩, show (machine 0 0 0 [0x07, 0x0F]).mem.readWord 0 = some 0x0F07#16 by decide, by decide⟩

theorem witness_ControlUnitHaltsAndStops :
    (∃ s : State, s.run = .running ∧ s.halt = true) ∧ (∃ s : State, s.run = .halted) ∧
      ∃ s : State, s.run = .faulted (.pcFault 0#16) :=
  ⟨⟨{ ready with halt := true }, rfl, rfl⟩, ⟨{ ready with run := .halted }, rfl⟩,
    ⟨{ ready with run := .faulted (.pcFault 0#16) }, rfl⟩⟩

theorem witness_StepAlwaysAnswersUnlessFaulted : ready.NotFaulted := by intro e h; cases h

theorem witness_StepPortIgnoresHaltAndRunState :
    ∀ w id, ready.Fetches w → decode w = .ok (.signal id) → HandlerTable.find ready.handlers id = none :=
  fun _ _ _ _ => rfl

theorem witness_HostRetryDoesNotReExecute :
    (∃ t, stepPort (machine 0 0x10 0 []) = .ok t) ∧
      stepPort (machine 0 0x2000 0 []) = .err (.pcFault 0x2000#16) (machine 0 0x2000 0 []) ∧
      (∃ t, stepPort (machine 0 0x10 0x10 [0x07]) = .err (.unknownOp 0x07#8) t) ∧
      ∀ id, HandlerTable.find (machine 0 0x10 0x10 [0x07]).handlers id = none :=
  ⟨⟨(machine 0 0x10 0 []).advance, by decide⟩, by decide, ⟨(machine 0 0x10 0x10 [0x07]).advance, by decide⟩,
    fun _ => rfl⟩

/-- The last slot that a push succeeds in, and the first it fails in (V-PUSH-4, V-PUSH-6). -/
theorem witness_push_bounds :
    ((machine 0x1FFE 0 0 []).getReg .sp).toNat + 1 < (machine 0x1FFE 0 0 []).mem.size ∧
      ¬ ((machine 0x1FFF 0 0 []).getReg .sp).toNat + 1 < (machine 0x1FFF 0 0 []).mem.size := by decide

theorem witness_PopRegisterLoadsTheStackTop :
    (machine 0x2000 0 0x1FFE [0x34, 0x12]).mem.readWord ((machine 0x2000 0 0x1FFE [0x34, 0x12]).getReg .sp - 2#16).toNat =
      some 0x1234#16 := by decide

theorem witness_PopOutOfBoundsRaisesReadFault :
    (machine 0x2001 0 0 []).mem.readWord ((machine 0x2001 0 0 []).getReg .sp - 2#16).toNat = none ∧
      ((machine 0 0 0 []).getReg .sp = 0#16 ∧ (machine 0 0 0 []).mem.size < 65536) ∧
      ((machine 1 0 0 [] 65536).getReg .sp = 1#16 ∧ (machine 1 0 0 [] 65536).mem.sizeLegal) := by decide

theorem witness_AddStackReplacesTwoWordsByTheirSum :
    (machine 0x2000 0 0x1FFC [5, 0, 3, 0]).mem.readWord ((machine 0x2000 0 0x1FFC [5, 0, 3, 0]).getReg .sp - 2#16).toNat =
        some 3#16 ∧
      (machine 0x2000 0 0x1FFC [5, 0, 3, 0]).mem.readWord
        ((machine 0x2000 0 0x1FFC [5, 0, 3, 0]).getReg .sp - 4#16).toNat = some 5#16 := by decide

theorem witness_AddStackFaultKeepsFirstPop :
    (machine 0 0 0 []).mem.readWord ((machine 0 0 0 []).getReg .sp - 2#16).toNat = none ∧
      (∃ a, (machine 2 0 0 []).mem.readWord ((machine 2 0 0 []).getReg .sp - 2#16).toNat = some a) ∧
      (machine 2 0 0 []).mem.readWord ((machine 2 0 0 []).getReg .sp - 4#16).toNat = none :=
  ⟨by decide, ⟨0#16, by decide⟩, by decide⟩

/-- `ready` with a handler for id 0x30. -/
def readyWith (h : Handler) : State := ready.defineHandler 0x30#8 h

theorem witness_SignalWithoutHandlerRaisesUnknownSignal : HandlerTable.find ready.handlers 0x30#8 = none := by decide

/-- For any handler on any machine, so for every statement about a Signal whose id has one. -/
theorem witness_registered_handler (m : State) (h : Handler) :
    HandlerTable.find (m.defineHandler 0x30#8 h).handlers 0x30#8 = some h := by
  rw [State.defineHandler_handlers, HandlerTable.find_define, if_pos rfl]

theorem witness_HaltHandlerEndsTheRun : (readyWith haltHandler).run = .running := rfl

theorem witness_NestedStepRunsTheNextInstruction :
    (readyWith (.step .returnStepResult .returnStepResult)).Fetches 0x0402#16 ∧
      decode 0x0402#16 = .ok (.popRegister .sp) ∧ (Instr.popRegister .sp).isSignal = false :=
  ⟨show ready.mem.readWord 0 = some 0x0402#16 by decide, by decide, rfl⟩

/-- The last byte and word a handler can access, and the first it cannot, at a fixed address and at a register's. -/
theorem witness_handler_memory_bounds (h : Handler) :
    ((readyWith h).handlerAddr (.fixed 8191) < (readyWith h).mem.size ∧
        ¬ (readyWith h).handlerAddr (.fixed 8192) < (readyWith h).mem.size) ∧
      ((readyWith h).handlerAddr (.fixed 8190) + 1 < (readyWith h).mem.size ∧
        ¬ (readyWith h).handlerAddr (.fixed 8191) + 1 < (readyWith h).mem.size) ∧
      (readyWith h).handlerAddr (.inReg .sp) = 0x1002 ∧
      (readyWith h).mem.readByte ((readyWith h).handlerAddr (.fixed 1)) = some 0x04#8 ∧
      (readyWith h).mem.readWord ((readyWith h).handlerAddr (.inReg .a)) = some 0x0402#16 :=
  show (8191 < ready.mem.size ∧ ¬ 8192 < ready.mem.size) ∧ (8190 + 1 < ready.mem.size ∧ ¬ 8191 + 1 < ready.mem.size) ∧
      (ready.getReg .sp).toNat = 0x1002 ∧ ready.mem.readByte 1 = some 0x04#8 ∧ ready.mem.readWord 0 = some 0x0402#16 by
    decide

theorem witness_HandlerMayIgnoreNestedFault :
    ((readyWith (.step .returnOk .returnOk)).setReg .pc 0x2000#16).mem.readWord 0x2000 = none ∧
      (readyWith (.step .returnOk .returnOk)).mem.readWord 2 = some 0#16 ∧
      ((machine 0 0 0 [0x08]).mem.readWord 0 = some 0x0008#16 ∧
        engineDecode 0x0008#16 = .error (.unknownOp 0x08#8)) ∧
      ((machine 2 0 0 [0x10]).mem.readWord 0 = some 0x0010#16 ∧ decode 0x0010#16 = .ok .addStack ∧
        (machine 2 0 0 [0x10]).mem.readWord ((machine 2 0 0 [0x10]).getReg .sp - 2#16).toNat = some 0x0010#16 ∧
        (machine 2 0 0 [0x10]).mem.readWord ((machine 2 0 0 [0x10]).getReg .sp - 4#16).toNat = none) := by decide

/-- An instruction of a nested step that is no Signal answers a next state, here AddStack with its second Pop failing. -/
theorem witness_HandlerMayIgnoreNestedFault_execute :
    Instr.addStack.isSignal = false ∧
      exec .addStack (machine 2 2 0 [0x10]) =
        .next (((machine 2 2 0 [0x10]).setReg .sp 0#16).takeError (.readFault 0xFFFE#16)) := ⟨rfl, rfl⟩

/-- A machine at Pc 0 before the word `Signal 0x31`, with handlers for 0x30 and 0x31: the outer and the inner one. -/
def nesting (outer inner : Handler) : State :=
  ((machine 0 0 0 [0x0F, 0x31]).defineHandler 0x31#8 inner).defineHandler 0x30#8 outer

theorem witness_NestedSignalEntersItsOwnHandler (outer inner : Handler) :
    HandlerTable.find (nesting outer inner).handlers 0x30#8 = some outer ∧
      (nesting outer inner).Fetches 0x310F#16 ∧ decode 0x310F#16 = .ok (.signal 0x31#8) ∧
      HandlerTable.find (nesting outer inner).handlers 0x31#8 = some inner ∧
      decode 0x320F#16 = .ok (.signal 0x32#8) ∧ HandlerTable.find (nesting outer inner).handlers 0x32#8 = none :=
  ⟨rfl, show (machine 0 0 0 [0x0F, 0x31]).mem.readWord 0 = some 0x310F#16 by decide, by decide, rfl, by decide, rfl⟩

theorem witness_NestedSignalEntersItsOwnHandler_results :
    Handler.stepFree (.setRegister .a 7#16 .returnOk) = true ∧
      (∃ t, runHandler (nestedStep (Config.nestingLimit - 1)) (.setRegister .a 7#16 .returnOk) none ready = .ok t) ∧
      ∃ t, runHandler (nestedStep (Config.nestingLimit - 1)) (.returnErr .unknownFile) none ready =
        .err .unknownFile t :=
  ⟨rfl, ⟨_, rfl⟩, ⟨_, rfl⟩⟩

theorem witness_InstructionsWriteOnlyTheirRegisters :
    (Instr.popRegister .sp).isSignal = false ∧ ∃ t, exec (.popRegister .sp) ready = .next t :=
  ⟨rfl, ⟨_, rfl⟩⟩

theorem witness_InstructionsStoreOnlyAtTheStack :
    storeAddr .addStack ready = some 0x0FFE#16 ∧ storeAddr (.popRegister .a) ready = none ∧
      ∃ t, exec .addStack ready = .next t :=
  ⟨by decide, rfl, ⟨_, rfl⟩⟩

theorem witness_OnlyHandlersChangeHaltAndTable :
    (∃ t, step ready = .next t) ∧
      ∀ w id h, ready.Fetches w → decode w = .ok (.signal id) → HandlerTable.find ready.handlers id ≠ some h :=
  ⟨⟨_, rfl⟩, fun _ _ _ _ _ h => by cases h⟩

theorem witness_ErrorsComeOnlyFromTheirRaisers :
    (machine 0 0 0 []).NotFaulted ∧ ∃ t, exec .addStack (machine 0 0 0 []) = .next t ∧
      t.run = .faulted (.readFault 0xFFFE#16) :=
  ⟨fun _ h => (by cases h), ⟨(machine 0 0 0 []).takeError (.readFault 0xFFFE#16), rfl, rfl⟩⟩

theorem witness_StepKeepsInvariant : ready.Inv ∧ ∃ t, step ready = .next t := ⟨by decide, ⟨_, rfl⟩⟩

theorem witness_ReachableStatesKeepInvariantAndBounds : ready.Inv ∧ ∃ t, Reaches 1 ready t :=
  ⟨by decide, ⟨_, .step rfl (.refl _)⟩⟩

theorem witness_PushedWordIsFetchedNext :
    (machine 4 4 0 []).getReg .sp = (machine 4 4 0 []).getReg .pc ∧
      ((machine 4 4 0 []).getReg .sp).toNat + 1 < (machine 4 4 0 []).mem.size := by decide

theorem witness_StackIsLastInFirstOut :
    ready.mem.size < 65536 ∧ ∃ t, pushAll [1#16, 2#16, 3#16] ready = .ok t :=
  ⟨by decide, ⟨_, rfl⟩⟩

theorem witness_AssembledLineDecodesToItself :
    parseLine "AddRegister A A".toList = .ok (some (.addRegister .a .a)) := by decide

theorem witness_AssemblyAbortsOnFirstMalformedLine :
    (∀ line ∈ ["Nop".toList], ∃ r, parseLine line = .ok r) ∧ parseLine "Push x".toList = .error .parseErr :=
  ⟨fun line h => ⟨some .nop, by rw [List.mem_singleton.1 h]; decide⟩, by decide⟩

theorem witness_AssemblerChecksMnemonicThenArity :
    (("push 256".toList.head? ≠ some ';' ∧ tokens "push 256".toList = ["push".toList, "256".toList]) ∧
        OpCode.fromMnemonic "push".toList = none) ∧
      (tokens "Push 256 1".toList = ["Push".toList, "256".toList, "1".toList] ∧
        OpCode.fromMnemonic "Push".toList = some .push ∧ 2 ≠ OpCode.push.arity) := by decide

end Sys2Proof.Tests
end

section
/-! PROOFS. The state's frames (10_state.md): what reset holds, which registers an instruction leaves alone, and what a
step leaves alone where no handler runs. -/

open Sys2Proof Sys2Proof.Machine

namespace Sys2Proof.Machine

/-! ### The control unit's reaction to a result -/

/-- A property of a result's machine that taking an error keeps is a property of the state the step answers (R100). -/
theorem Result.conclude_keeps {P : State → Prop} (herr : ∀ s e, P s → P (s.takeError e)) {r : Result} {t : State}
    (h : r.conclude = .next t) (hr : P r.state) : P t := by
  cases r with
  | ok s => cases h; exact hr
  | err e s => cases h; exact herr s e hr

/-! ### Registers outside a list -/

@[simp] theorem SameRegsBut.refl (l : List Reg) (s : State) : SameRegsBut l s s := fun _ _ => rfl

theorem SameRegsBut.setReg {l : List Reg} {s t : State} (h : SameRegsBut l s t) {r : Reg} (hr : r ∈ l) (v : Word) :
    SameRegsBut l s (t.setReg r v) := by
  intro q hq
  rw [State.getReg_setReg_other t v (ne_of_mem_of_not_mem hr hq).symm]
  exact h q hq

/-- A push writes no register but Sp, and none where it fails (40_control_unit.md R107). -/
theorem SameRegsBut.pushResult {l : List Reg} {s t : State} (h : SameRegsBut l s t) (hsp : .sp ∈ l) (v : Word) :
    SameRegsBut l s (t.pushResult v).state := by
  rcases t.pushResult_cases v with ⟨_, e⟩ | ⟨_, e⟩ <;> rw [e]
  · intro q hq
    rw [Result.state_ok, State.pushed_other t v (ne_of_mem_of_not_mem hsp hq).symm]
    exact h q hq
  · exact h

/-- PopRegister writes Sp and its destination, and nothing where the pop fails (42_stack.md R126). -/
theorem runPopRegister_sameRegsBut (r : Reg) (s : State) : SameRegsBut [.sp, r] s (runPopRegister r s).state := by
  rcases s.pop_cases with ⟨_, e⟩ | ⟨_, e⟩ <;> simp only [runPopRegister, e]
  · exact ((SameRegsBut.refl _ s).setReg (by simp) _).setReg (by simp) _
  · exact .refl _ s

/-- AddStack writes Sp alone, also where its first or second pop fails (45_arith.md R160). -/
theorem runAddStack_sameRegsBut (s : State) : SameRegsBut [.sp] s (runAddStack s).state := by
  rcases s.pop_cases with ⟨_, e⟩ | ⟨_, e⟩ <;> simp only [runAddStack, e]
  · have h1 : SameRegsBut [.sp] s (s.setReg .sp s.popAddr) := (SameRegsBut.refl _ s).setReg (by simp) _
    rcases (s.setReg .sp s.popAddr).pop_cases with ⟨_, e1⟩ | ⟨_, e1⟩ <;> simp only [e1]
    · exact (h1.setReg (by simp) _).pushResult (by simp) _
    · exact h1
  · exact .refl _ s

/-- The write lists of 10_state.md R23 hold for every instruction, a Signal's handler aside. -/
theorem runInstr_sameRegsBut {i : Instr} (hi : i.isSignal = false) (signal : Byte → State → Result) (s : State) :
    SameRegsBut i.writes s (runInstr signal i s).state := by
  cases i with
  | nop => exact .refl _ s
  | push imm => exact (SameRegsBut.refl _ s).pushResult (by simp [Instr.writes]) _
  | popRegister r => exact runPopRegister_sameRegsBut r s
  | pushRegister r => exact (SameRegsBut.refl _ s).pushResult (by simp [Instr.writes]) _
  | jmpReg f => exact .refl _ s
  | jmpImm => exact .refl _ s
  | signal id => cases hi
  | addStack => exact runAddStack_sameRegsBut s
  | addRegister r1 r2 => exact (SameRegsBut.refl _ s).setReg (by simp [Instr.writes]) _

/-! ### Steps in which no handler runs -/

/-- What register writes and pushes keep, an instruction keeps unless it is a Signal with a registered handler. -/
theorem runInstr_keeps_of_noHandler {P : State → Prop} (hset : ∀ s r v, P s → P (s.setReg r v))
    (hpush : ∀ s v, s.pushAddr.toNat + 1 < s.mem.size → P s → P (s.pushed v)) {i : Instr} {s : State}
    (hno : ∀ id, i = .signal id → HandlerTable.find s.handlers id = none) (hs : P s) :
    P (runInstr runSignal i s).state := by
  cases hi : i.isSignal with
  | false =>
    rw [runInstr_noSignal hi runSignal fun _ => .ok]
    exact runInstr_keeps (signal := fun _ => .ok) hset hpush (fun _ _ h => h) i s hs
  | true =>
    cases i with
    | signal id => simpa [runInstr, runSignal, State.signalTrap_unknown _ (hno id rfl)] using hs
    | _ => cases hi

/-- What register writes and pushes keep, a step keeps unless it fetches a Signal with a registered handler. -/
theorem stepPort_keeps_of_noHandler {P : State → Prop} (hset : ∀ s r v, P s → P (s.setReg r v))
    (hpush : ∀ s v, s.pushAddr.toNat + 1 < s.mem.size → P s → P (s.pushed v)) {s : State}
    (hno : ∀ w id, s.Fetches w → decode w = .ok (.signal id) → HandlerTable.find s.handlers id = none) (hs : P s) :
    P (stepPort s).state := by
  rcases fourPhases_cases runSignal s with ⟨_, e⟩ | ⟨_, _, _, _, e⟩ | ⟨w, i, hf, hd, e⟩ <;> rw [stepPort, e]
  · exact hs
  · exact hset _ _ _ hs
  · exact runInstr_keeps_of_noHandler hset hpush (fun id hi => hno w id hf (hi ▸ hd)) (hset _ _ _ hs)

/-- Neither a register write nor a push nor an error touches the control state, so a step without a handler leaves it
(10_state.md R31, R34). -/
theorem step_sameControl_of_noHandler {s t : State} (h : step s = .next t)
    (hno : ∀ w id, s.Fetches w → decode w = .ok (.signal id) → HandlerTable.find s.handlers id = none) :
    SameControl s t := by
  have hrefl : SameControl s s := ⟨rfl, rfl, rfl, rfl⟩
  rcases step_cases h with ⟨_, rfl⟩ | ⟨_, _, rfl⟩ | ⟨_, _, hc⟩
  · exact hrefl
  · exact hrefl
  · exact Result.conclude_keeps (P := SameControl s) (fun _ _ hu => hu) hc
      (stepPort_keeps_of_noHandler (fun _ _ _ hu => hu) (fun _ _ _ hu => hu) hno hrefl)

/-! ### Reset -/

/-- A word of a fresh memory reads as zero (20_memory.md R63). -/
theorem Memory.fresh_readWord {size a : Nat} (h : a + 1 < size) : (Memory.fresh size).readWord a = some 0#16 :=
  Memory.readWord_eq_some.2 ⟨h, by rw [Memory.fresh_get, Memory.fresh_get]; decide⟩

end Sys2Proof.Machine

/-- Settles O45: lookup after registration, then the trap run on the one-registration handler. -/
theorem lastRegistrationWins : Obligations.LastRegistrationWins := by
  unfold Obligations.LastRegistrationWins
  refine ⟨HandlerTable.find_define, fun id s g h => ⟨s.defineHandler id g, ?_, ?_, rfl, rfl, rfl, rfl⟩⟩
  · rw [exec_signal_known h]; rfl
  · rw [State.defineHandler_handlers, HandlerTable.find_define, if_pos rfl]

/-- Settles O46, by cases on the instruction; an error adds nothing but the run state. -/
theorem instructionsWriteOnlyTheirRegisters : Obligations.InstructionsWriteOnlyTheirRegisters := by
  unfold Obligations.InstructionsWriteOnlyTheirRegisters
  intro i s t hi h
  rw [exec_eq] at h
  exact Result.conclude_keeps (P := SameRegsBut i.writes s) (fun _ _ hu => hu) h (runInstr_sameRegsBut hi _ s)

/-- Settles O48: control state is kept by every operation but a handler's. -/
theorem onlyHandlersChangeHaltAndTable : Obligations.OnlyHandlersChangeHaltAndTable := by
  unfold Obligations.OnlyHandlersChangeHaltAndTable
  intro s t h hno
  exact step_sameControl_of_noHandler h fun w id hf hd =>
    Option.eq_none_iff_forall_ne_some.2 fun g => hno w id g hf hd

/-- Settles O14: reset holds the zero registers and a fresh memory, and the zero word is Nop. -/
theorem resetZeroesRegistersAndMemory : Obligations.ResetZeroesRegistersAndMemory := by
  unfold Obligations.ResetZeroesRegistersAndMemory
  refine ⟨Regs.zero_get, fun a ha => ?_, fun a ha => ⟨0#16, ?_, ?_⟩⟩
  · exact Memory.readByte_eq_some.2 ⟨ha, rfl⟩
  · exact Memory.fresh_readWord ha
  · decide
end

section
/-! PROOFS. Memory (20_memory.md): what the port operations read back and leave alone, where an instruction and a
handler store, and the invariant of the machine's data along every run. -/

open Sys2Proof Sys2Proof.Machine

namespace Sys2Proof.Machine

/-! ### Bytes read back after a write -/

/-- A byte read succeeds exactly in bounds (20_memory.md R47). -/
theorem Memory.exists_readByte_iff {m : Memory} {a : Nat} : (∃ v, m.readByte a = some v) ↔ a < m.size := by
  simp [Memory.readByte_eq_some]

/-- The byte written reads back (R47, R48). -/
theorem Memory.readByte_set_same {m : Memory} {a : Nat} (v : Byte) (h : a < m.size) :
    (m.set a v).readByte a = some v :=
  Memory.readByte_eq_some.2 ⟨h, m.get_set_same a v⟩

/-- A byte write leaves every other byte alone (R48). -/
theorem Memory.readByte_set_other (m : Memory) {a b : Nat} (v : Byte) (h : b ≠ a) :
    (m.set a v).readByte b = m.readByte b :=
  Memory.readByte_congr rfl (m.get_set_other v h)

/-- The low byte of a word written stands at its address (R50). -/
theorem Memory.readByte_setWord_low {m : Memory} {a : Nat} (v : Word) (h : a + 1 < m.size) :
    (m.setWord a v).readByte a = some (lowByte v) :=
  Memory.readByte_eq_some.2 ⟨Nat.lt_of_succ_lt h, by simp [Memory.get_setWord]⟩

/-- The high byte of a word written stands after its address (R50). -/
theorem Memory.readByte_setWord_high {m : Memory} {a : Nat} (v : Word) (h : a + 1 < m.size) :
    (m.setWord a v).readByte (a + 1) = some (highByte v) :=
  Memory.readByte_eq_some.2 ⟨h, by simp [Memory.get_setWord]⟩

/-- Each byte of a loaded sequence reads back at its place (R58). -/
theorem Memory.readByte_setAll_loaded {m : Memory} {bytes : List Byte} {offset i : Nat} {v : Byte}
    (h : offset + bytes.length ≤ m.size) (hv : bytes[i]? = some v) :
    (m.setAll bytes offset).readByte (offset + i) = some v := by
  have hi : i < bytes.length := (List.getElem?_eq_some_iff.1 hv).1
  refine Memory.readByte_eq_some.2 ⟨by rw [Memory.setAll_size]; omega, ?_⟩
  simp [Memory.get_setAll, hv]

/-- A load leaves every byte below and above the sequence alone (R58). -/
theorem Memory.readByte_setAll_other (m : Memory) {bytes : List Byte} {offset b : Nat}
    (h : b < offset ∨ offset + bytes.length ≤ b) : (m.setAll bytes offset).readByte b = m.readByte b := by
  refine Memory.readByte_congr (m.setAll_size bytes offset) ?_
  rw [Memory.get_setAll]
  rcases h with hb | hb
  · rw [if_neg (by omega)]
  · rw [if_pos (by omega), List.getElem?_eq_none (by omega)]; rfl

/-! ### Where an instruction stores -/

/-- A push in bounds ends its instruction with Ok (40_control_unit.md R107). -/
theorem State.pushResult_ok {s : State} (v : Word) (h : s.pushAddr.toNat + 1 < s.mem.size) :
    s.pushResult v = .ok (s.pushed v) := by
  rw [State.pushResult, State.push_ok v h]

/-- Every byte reads the same but those of the word at the store address, and every byte does where there is none
(20_memory.md R54). -/
def StoresOnlyAt (addr : Option Word) (s t : State) : Prop :=
  match addr with
  | none => SameBytes s t
  | some a => SameBytesBut a.toNat s t

theorem StoresOnlyAt.of_mem_eq {addr : Option Word} {s t : State} (h : t.mem = s.mem) : StoresOnlyAt addr s t := by
  cases addr with
  | none => intro b; rw [h]
  | some a => intro b _ _; rw [h]

/-- It speaks of the memories alone. -/
theorem StoresOnlyAt.congr {addr : Option Word} {s t s' t' : State} (h : StoresOnlyAt addr s t) (hs : s'.mem = s.mem)
    (ht : t'.mem = t.mem) : StoresOnlyAt addr s' t' := by
  cases addr with
  | none => intro b; rw [hs, ht]; exact h b
  | some a => intro b h0 h1; rw [hs, ht]; exact h b h0 h1

/-- A push stores at the address it computes alone, and nothing where it fails (40_control_unit.md R107). -/
theorem StoresOnlyAt.pushResult (s : State) (v : Word) :
    StoresOnlyAt (some s.pushAddr) s (s.pushResult v).state := by
  rcases s.pushResult_cases v with ⟨_, e⟩ | ⟨_, e⟩ <;> rw [e]
  · intro b h0 h1
    exact s.mem.readByte_setWord_other v h0 h1
  · exact .of_mem_eq rfl

/-- A pop loads only, so PopRegister stores nothing (42_stack.md R126). -/
theorem runPopRegister_mem (r : Reg) (s : State) : (runPopRegister r s).state.mem = s.mem := by
  rcases s.pop_cases with ⟨_, e⟩ | ⟨_, e⟩ <;> simp [runPopRegister, e]

/-- AddStack stores where its second pop read, and nothing where a pop fails (45_arith.md R160). -/
theorem runAddStack_storesOnlyAt (s : State) :
    StoresOnlyAt (some (s.setReg .sp s.popAddr).popAddr) s (runAddStack s).state := by
  rcases s.pop_cases with ⟨_, e⟩ | ⟨_, e⟩ <;> simp only [runAddStack, e]
  · rcases (s.setReg .sp s.popAddr).pop_cases with ⟨_, e1⟩ | ⟨_, e1⟩ <;> simp only [e1]
    · have hpush := StoresOnlyAt.pushResult ((s.setReg .sp s.popAddr).setReg .sp (s.setReg .sp s.popAddr).popAddr)
      rw [State.pushAddr, State.getReg_setReg_same] at hpush
      exact (hpush _).congr rfl rfl
    · exact .of_mem_eq rfl
  · exact .of_mem_eq rfl

/-- Every instruction but Signal stores at its store address alone, whether it completes or raises an error. -/
theorem runInstr_storesOnlyAt {i : Instr} (hi : i.isSignal = false) (signal : Byte → State → Result) (s : State) :
    StoresOnlyAt (storeAddr i s) s (runInstr signal i s).state := by
  cases i with
  | nop => exact .of_mem_eq rfl
  | push imm => exact .pushResult s _
  | popRegister r => exact .of_mem_eq (runPopRegister_mem r s)
  | pushRegister r => exact .pushResult s _
  | jmpReg f => exact .of_mem_eq rfl
  | jmpImm => exact .of_mem_eq rfl
  | signal id => cases hi
  | addStack => exact runAddStack_storesOnlyAt s
  | addRegister r1 r2 => exact .of_mem_eq rfl

/-! ### What a handler's memory accesses do to the step -/

/-- The byte a handler gets, zero-extended, has a zero byte above it (30_encoding.md R75). -/
theorem zext16_eq_append (v : Byte) : zext16 v = 0x00#8 ++ v :=
  BitVec.setWidth_eq_append (by decide)

/-- A Signal whose handler completes or fails by one condition, a failure leaving the machine as it was (44_signal.md
R150, 60_exceptions.md R181). -/
theorem exec_signal_of_runHandler {id : Byte} {s t : State} {h : Handler} {e : EngineError} {inBounds : Prop}
    (hf : HandlerTable.find s.handlers id = some h)
    (hr : (inBounds ∧ runHandler (nestedStep Config.nestingLimit) h none s = .ok t) ∨
      (¬ inBounds ∧ runHandler (nestedStep Config.nestingLimit) h none s = .err e s)) :
    (inBounds ∧ exec (.signal id) s = .next t) ∨ (¬ inBounds ∧ exec (.signal id) s = .next (s.takeError e)) := by
  rw [exec_signal_known hf]
  rcases hr with ⟨hb, hr⟩ | ⟨hb, hr⟩ <;> rw [hr]
  · exact .inl ⟨hb, rfl⟩
  · exact .inr ⟨hb, rfl⟩

/-- A Signal whose handler writes one byte, or a register's low byte, and returns by the port's result (20_memory.md
R48, R64). -/
theorem exec_signal_writeByte {id : Byte} {s : State} {p : HandlerAddr} {h : Handler} {e : EngineError} {v : Byte}
    (hf : HandlerTable.find s.handlers id = some h)
    (hh : h = .writeByte p v .returnOk (.returnErr e) ∨
      ∃ r, h = .storeByte p r .returnOk (.returnErr e) ∧ v = lowByte (s.getReg r)) :
    (s.handlerAddr p < s.mem.size ∧
        exec (.signal id) s = .next (s.withMem (s.mem.set (s.handlerAddr p) v))) ∨
      (¬ s.handlerAddr p < s.mem.size ∧ exec (.signal id) s = .next (s.takeError e)) := by
  rcases hh with rfl | ⟨r, rfl, rfl⟩
  · exact exec_signal_of_runHandler hf (runHandler_writeByte _ p v .returnOk (.returnErr e) none s)
  · exact exec_signal_of_runHandler hf (runHandler_writeByte _ p (lowByte (s.getReg r)) .returnOk (.returnErr e) none s)

/-- A Signal whose handler writes one word, or a register, and returns by the port's result (R50, R64). -/
theorem exec_signal_writeWord {id : Byte} {s : State} {p : HandlerAddr} {h : Handler} {e : EngineError} {v : Word}
    (hf : HandlerTable.find s.handlers id = some h)
    (hh : h = .writeWord p v .returnOk (.returnErr e) ∨
      ∃ r, h = .storeWord p r .returnOk (.returnErr e) ∧ v = s.getReg r) :
    (s.handlerAddr p + 1 < s.mem.size ∧
        exec (.signal id) s = .next (s.withMem (s.mem.setWord (s.handlerAddr p) v))) ∨
      (¬ s.handlerAddr p + 1 < s.mem.size ∧ exec (.signal id) s = .next (s.takeError e)) := by
  rcases hh with rfl | ⟨r, rfl, rfl⟩
  · exact exec_signal_of_runHandler hf (runHandler_writeWord _ p v .returnOk (.returnErr e) none s)
  · exact exec_signal_of_runHandler hf (runHandler_writeWord _ p (s.getReg r) .returnOk (.returnErr e) none s)

/-- A Signal whose handler reads one byte and returns by the port's result (R47, R64). -/
theorem exec_signal_loadByte {id : Byte} {s : State} {r : Reg} {p : HandlerAddr} {e : EngineError}
    (hf : HandlerTable.find s.handlers id = some (.loadByte r p .returnOk (.returnErr e))) :
    (s.handlerAddr p < s.mem.size ∧
        exec (.signal id) s = .next (s.setReg r (zext16 (s.mem.get (s.handlerAddr p))))) ∨
      (¬ s.handlerAddr p < s.mem.size ∧ exec (.signal id) s = .next (s.takeError e)) :=
  exec_signal_of_runHandler hf (runHandler_loadByte _ r p .returnOk (.returnErr e) none s)

/-- A Signal whose handler reads one word and returns by the port's result (R49, R64). -/
theorem exec_signal_loadWord {id : Byte} {s : State} {r : Reg} {p : HandlerAddr} {e : EngineError}
    (hf : HandlerTable.find s.handlers id = some (.loadWord r p .returnOk (.returnErr e))) :
    (s.handlerAddr p + 1 < s.mem.size ∧ exec (.signal id) s =
        .next (s.setReg r (wordOfBytes (s.mem.get (s.handlerAddr p)) (s.mem.get (s.handlerAddr p + 1))))) ∨
      (¬ s.handlerAddr p + 1 < s.mem.size ∧ exec (.signal id) s = .next (s.takeError e)) :=
  exec_signal_of_runHandler hf (runHandler_loadWord _ r p .returnOk (.returnErr e) none s)

/-! ### What every round of the run loop keeps -/

/-- A property that no change of run state touches is kept by a round of the run loop where the step port keeps it
(40_control_unit.md R100). -/
theorem step_keeps_of_stepPort {P : State → Prop} (hrun : ∀ (s : State) r, P s → P { s with run := r }) {s t : State}
    (h : step s = .next t) (hs : P s) (hport : P (stepPort s).state) : P t := by
  rcases step_cases h with ⟨_, rfl⟩ | ⟨_, _, rfl⟩ | ⟨_, _, hc⟩
  · exact hs
  · exact hrun s _ hs
  · exact Result.conclude_keeps (fun u e => hrun u _) hc hport

/-- No round changes the capacity of memory (20_memory.md R45). -/
theorem step_size {s t : State} (h : step s = .next t) : t.mem.size = s.mem.size := by
  have hport := stepPort_keeps (keptByPorts_size_run s.mem.size s.run) (fun _ _ _ hu => hu) s ⟨rfl, rfl⟩
  exact step_keeps_of_stepPort (P := fun u => u.mem.size = s.mem.size) (fun _ _ hu => hu) h rfl hport.1

/-- A round keeps memory and handler table in their canonical forms (log 27). -/
theorem step_wf {s t : State} (h : step s = .next t) (hs : s.mem.wf ∧ HandlerTable.wf s.handlers) :
    t.mem.wf ∧ HandlerTable.wf t.handlers := by
  have hpush (u : State) (v : Word) (hb : u.pushAddr.toNat + 1 < u.mem.size)
      (hu : u.mem.wf ∧ HandlerTable.wf u.handlers) : (u.pushed v).mem.wf ∧ HandlerTable.wf (u.pushed v).handlers :=
    ⟨Memory.setWord_wf v hu.1 hb, hu.2⟩
  exact step_keeps_of_stepPort (P := fun u => u.mem.wf ∧ HandlerTable.wf u.handlers) (fun _ _ hu => hu) h hs
    (stepPort_keeps keptByPorts_wf hpush s hs)

/-- A round keeps the invariant of the machine's data. -/
theorem step_inv {s t : State} (hs : s.Inv) (h : step s = .next t) : t.Inv := by
  obtain ⟨hm, hsize, ht⟩ := hs
  obtain ⟨hm', ht'⟩ := step_wf h ⟨hm, ht⟩
  exact ⟨hm', by rw [Memory.sizeLegal, step_size h]; exact hsize, ht'⟩

/-- The induction over the rounds of a run, packaged once: what every round keeps, every run keeps. -/
theorem Reaches.keeps {P : State → Prop} (hstep : ∀ s t, P s → Machine.step s = .next t → P t) {k : Nat} {s t : State}
    (h : Reaches k s t) (hs : P s) : P t := by
  induction h with
  | refl s => exact hs
  | step first _ ih => exact ih (hstep _ _ hs first)

end Sys2Proof.Machine

/-- Settles O51: memory and table keep their forms under every operation, and the capacity stays the same. -/
theorem stepKeepsInvariant : Obligations.StepKeepsInvariant := by
  unfold Obligations.StepKeepsInvariant
  intro s t hs h
  exact step_inv hs h

/-- Settles O52, by induction on the rounds with the capacity beside the invariant. -/
theorem reachableStatesKeepInvariantAndBounds : Obligations.ReachableStatesKeepInvariantAndBounds := by
  unfold Obligations.ReachableStatesKeepInvariantAndBounds
  intro k s t hs h
  obtain ⟨hinv, hsize⟩ := Reaches.keeps (P := fun u => u.Inv ∧ u.mem.size = s.mem.size)
    (fun u v hu huv => ⟨step_inv hu.1 huv, (step_size huv).trans hu.2⟩) h ⟨hs, rfl⟩
  exact ⟨hinv, hsize, fun a => by rw [Memory.exists_readByte_iff, hsize]⟩

/-- Settles O10: the memory a word write leaves, read at its two addresses, as a word and elsewhere. -/
theorem wordWriteIsAllOrNothing : Obligations.WordWriteIsAllOrNothing := by
  unfold Obligations.WordWriteIsAllOrNothing
  intro m a v
  refine ⟨fun h => ⟨m.setWord a v, Memory.writeWord_eq_some.2 ⟨h, rfl⟩, rfl, ?_, ?_, ?_, ?_⟩,
    Memory.writeWord_eq_none.2⟩
  · exact Memory.readByte_setWord_low v h
  · exact Memory.readByte_setWord_high v h
  · exact Memory.readWord_setWord v h
  · exact fun b h0 h1 => m.readByte_setWord_other v h0 h1

/-- Settles O13: the memory a load leaves, read inside and outside the sequence. -/
theorem bulkLoadIsAllOrNothing : Obligations.BulkLoadIsAllOrNothing := by
  unfold Obligations.BulkLoadIsAllOrNothing
  intro m bytes offset
  refine ⟨fun h => ⟨m.setAll bytes offset, Memory.bulkLoad_eq_some.2 ⟨h, rfl⟩, m.setAll_size bytes offset, ?_, ?_⟩,
    fun h => ?_⟩
  · exact fun i v hv => Memory.readByte_setAll_loaded h hv
  · exact fun b hb => m.readByte_setAll_other hb
  · exact Option.eq_none_iff_forall_ne_some.2 fun n hn => h (Memory.bulkLoad_eq_some.1 hn).1

/-- Settles O42: the Signal does what the one write at the port does, in bounds or out of bounds. -/
theorem handlerWritesMemoryThroughThePort : Obligations.HandlerWritesMemoryThroughThePort := by
  unfold Obligations.HandlerWritesMemoryThroughThePort
  intro id s p h e hf
  refine ⟨fun v hh => ?_, fun v hh => ?_⟩
  · rcases exec_signal_writeByte hf hh with ⟨hb, hx⟩ | ⟨hb, hx⟩
    · refine ⟨fun _ => ⟨_, hx, rfl, ⟨rfl, rfl, rfl, rfl⟩, rfl, ?_, ?_⟩, fun hn => absurd hb hn⟩
      · exact Memory.readByte_set_same v hb
      · exact fun b h0 => s.mem.readByte_set_other v h0
    · exact ⟨fun hb' => absurd hb' hb, fun _ => hx⟩
  · rcases exec_signal_writeWord hf hh with ⟨hb, hx⟩ | ⟨hb, hx⟩
    · refine ⟨fun _ => ⟨_, hx, rfl, ⟨rfl, rfl, rfl, rfl⟩, rfl, ?_, ?_⟩, fun hn => absurd hb hn⟩
      · exact Memory.readWord_setWord v hb
      · exact fun b h0 h1 => s.mem.readByte_setWord_other v h0 h1
    · exact ⟨fun hb' => absurd hb' hb, fun _ => hx⟩

/-- Settles O47, by cases on the instruction; an error adds nothing but the run state. -/
theorem instructionsStoreOnlyAtTheStack : Obligations.InstructionsStoreOnlyAtTheStack := by
  unfold Obligations.InstructionsStoreOnlyAtTheStack
  intro i s t hi h
  rw [exec_eq] at h
  have hst : StoresOnlyAt (storeAddr i s) s t :=
    Result.conclude_keeps (fun _ _ hu => hu.congr rfl rfl) h (runInstr_storesOnlyAt hi _ s)
  exact ⟨fun a ha => by rwa [ha] at hst, fun hn => by rwa [hn] at hst⟩

/-- Settles O50: neither the step port nor the run loop changes the capacity. -/
theorem stepKeepsMemoryCapacity : Obligations.StepKeepsMemoryCapacity := by
  unfold Obligations.StepKeepsMemoryCapacity
  intro s t h
  exact step_size h

/-- Settles O53: with Sp at Pc the push stores where the fetch reads, and the word reads back. -/
theorem pushedWordIsFetchedNext : Obligations.PushedWordIsFetchedNext := by
  unfold Obligations.PushedWordIsFetchedNext
  intro r s hpc hb
  have hkeep : (s.pushed (s.getReg r)).getReg .pc = s.getReg .pc := s.pushed_other _ (by decide)
  refine ⟨s.pushed (s.getReg r), ?_, hkeep, ?_⟩
  · rw [exec_eq]; simp only [runInstr, runPushRegister, State.pushResult_ok _ hb, Result.conclude_ok]
  · rw [State.Fetches, hkeep, ← hpc]
    exact Memory.readWord_setWord _ hb

/-- Settles O58: the Signal does what the one read at the port does, in bounds or out of bounds. -/
theorem handlerReadsMemoryThroughThePort : Obligations.HandlerReadsMemoryThroughThePort := by
  unfold Obligations.HandlerReadsMemoryThroughThePort
  intro id s r p e
  refine ⟨fun hf => ?_, fun hf => ?_⟩
  · rcases exec_signal_loadByte hf with ⟨hb, hx⟩ | ⟨hb, hx⟩
    · refine ⟨fun v hv => ?_, fun hn => absurd hb hn⟩
      rw [hx, zext16_eq_append, (Memory.readByte_eq_some.1 hv).2]
    · exact ⟨fun v hv => absurd (Memory.readByte_eq_some.1 hv).1 hb, fun _ => hx⟩
  · rcases exec_signal_loadWord hf with ⟨hb, hx⟩ | ⟨hb, hx⟩
    · refine ⟨fun v hv => ?_, fun hn => absurd hb hn⟩
      rw [hx, (Memory.readWord_eq_some.1 hv).2]
    · exact ⟨fun v hv => absurd (Memory.readWord_eq_some.1 hv).1 hb, fun _ => hx⟩

/-- Settles O9: the word is made of the two bytes that reads at its addresses give. -/
theorem wordReadIsLittleEndianOrFails : Obligations.WordReadIsLittleEndianOrFails := by
  unfold Obligations.WordReadIsLittleEndianOrFails
  intro m a
  refine ⟨fun h => ⟨m.get a, m.get (a + 1), ?_, ?_, ?_⟩, Memory.readWord_eq_none.2⟩
  · exact Memory.readByte_eq_some.2 ⟨Nat.lt_of_succ_lt h, rfl⟩
  · exact Memory.readByte_eq_some.2 ⟨h, rfl⟩
  · exact Memory.readWord_eq_some.2 ⟨h, rfl⟩

/-- Settles O11: the memory a byte write leaves, read at its address and elsewhere. -/
theorem byteWriteChangesOneByteOrFails : Obligations.ByteWriteChangesOneByteOrFails := by
  unfold Obligations.ByteWriteChangesOneByteOrFails
  intro m a v
  refine ⟨fun h => ⟨Memory.exists_readByte_iff.2 h, m.set a v, Memory.writeByte_eq_some.2 ⟨h, rfl⟩, rfl, ?_, ?_⟩,
    fun h => ⟨Memory.readByte_eq_none.2 h, Memory.writeByte_eq_none.2 h⟩⟩
  · exact Memory.readByte_set_same v h
  · exact fun b hb => m.readByte_set_other v hb

/-- Settles O12: 0xFFFF + 1 is no address of a memory of at most 65536 bytes. -/
theorem wordAccessAtTopAddressFails : Obligations.WordAccessAtTopAddressFails := by
  unfold Obligations.WordAccessAtTopAddressFails
  intro m v hlegal
  have hout : ¬ 0xFFFF + 1 < m.size := not_lt.2 hlegal.2
  exact ⟨Memory.readWord_eq_none.2 hout, Memory.writeWord_eq_none.2 hout⟩
end

section
/-! PROOFS. Encoding (30_encoding.md): the decoder by what it reads of a word, the fields of encoded and of masked
words, the round trip both ways, the words that fail decode, and the lines the assembler reads. -/

open Sys2Proof Sys2Proof.Machine

namespace Sys2Proof

/-! ### Opcode bytes and register fields -/

/-- The opcode-byte decoder is the converse of the opcode table (30_encoding.md R73, R77). -/
theorem OpCode.ofByte_eq_some_iff {b : Byte} {o : OpCode} : OpCode.ofByte b = some o ↔ b = o.byte :=
  ⟨fun h => (OpCode.byte_of_ofByte h).symm, fun h => h ▸ OpCode.ofByte_byte o⟩

/-- The 247 bytes that R78 leaves unassigned. -/
def Unassigned (b : Byte) : Prop :=
  0x04 ≤ b.toNat ∧ b.toNat ≤ 0x06 ∨ 0x09 ≤ b.toNat ∧ b.toNat ≤ 0x0E ∨ 0x12 ≤ b.toNat

theorem OpCode.byte_assigned (o : OpCode) : ¬ Unassigned o.byte := by
  cases o <;> simp [Unassigned, OpCode.byte]

theorem OpCode.ofByte_of_unassigned {b : Byte} (h : Unassigned b) : OpCode.ofByte b = none :=
  Option.eq_none_iff_forall_ne_some.2 fun o ho => o.byte_assigned (OpCode.ofByte_eq_some_iff.1 ho ▸ h)

/-- A field selects a register exactly where it is that register's id (R74). -/
theorem Reg.ofField_eq_ok_iff {f : BitVec 4} {r : Reg} : Reg.ofField f = .ok r ↔ f = r.field := by
  refine ⟨fun h => ?_, fun h => h ▸ Reg.ofField_field r⟩
  rcases Reg.ofField_cases f with ⟨q, hq, hf, _⟩ | ⟨hq, _⟩
  · rw [hq] at h; cases h; exact hf.symm
  · rw [hq] at h; cases h

theorem Reg.exists_field_of_lt {f : BitVec 4} (h : f.toNat < 8) : ∃ r : Reg, f = r.field := by
  rcases Reg.ofField_cases f with ⟨r, _, hf, _⟩ | ⟨_, hge⟩
  · exact ⟨r, hf.symm⟩
  · exact absurd h (not_lt.2 hge)

theorem Reg.ofField_of_ge {f : BitVec 4} (h : 8 ≤ f.toNat) : Reg.ofField f = .error (.unknownReg f) := by
  rcases Reg.ofField_cases f with ⟨_, _, _, hlt⟩ | ⟨hf, _⟩
  · exact absurd h (not_le.2 hlt)
  · exact hf

/-! ### The decoders by what they read -/

/-- The operands of an instruction stand in the fields of its format (R72, R75). -/
def Instr.OperandsIn (w : Word) : Instr → Prop
  | .nop => True
  | .push imm => immField w = imm
  | .popRegister r => regField w = r.field
  | .pushRegister r => regField w = r.field
  | .jmpReg f => regField w = f
  | .jmpImm => True
  | .signal id => immField w = id
  | .addStack => True
  | .addRegister r1 r2 => regField w = r1.field ∧ reg2Field w = r2.field

/-- A word decodes to an instruction exactly where its opcode byte is the instruction's and its fields hold the
instruction's operands (R72, R77). -/
theorem decode_eq_ok_iff {w : Word} {i : Instr} :
    decode w = .ok i ↔ opcodeField w = i.opcode.byte ∧ i.OperandsIn w := by
  rw [← OpCode.ofByte_eq_some_iff]
  suffices hsuff : OpCode.ofByte (opcodeField w) = some i.opcode → (decode w = .ok i ↔ i.OperandsIn w) from
    ⟨fun h => ⟨decode_opcode h, (hsuff (decode_opcode h)).1 h⟩, fun h => (hsuff h.1).2 h.2⟩
  intro hop
  rw [decode, hop]
  cases i with
  | nop | push | jmpReg | jmpImm | signal | addStack => simp [Instr.opcode, Instr.OperandsIn]
  | popRegister r | pushRegister r =>
    simp only [Instr.opcode, Instr.OperandsIn, ← Reg.ofField_eq_ok_iff]
    cases Reg.ofField (regField w) <;> simp
  | addRegister r1 r2 =>
    simp only [Instr.opcode, Instr.OperandsIn, ← Reg.ofField_eq_ok_iff]
    cases Reg.ofField (regField w) <;> cases Reg.ofField (reg2Field w) <;> simp

/-- The engine's decoder gives exactly the executed instructions that `decode` gives (R76). -/
theorem engineDecode_eq_ok_iff {w : Word} {i : Instr} :
    engineDecode w = .ok i ↔ decode w = .ok i ∧ i.executed = true := by
  cases hd : decode w with
  | error e => simp [engineDecode, hd]
  | ok j =>
    simp only [engineDecode, hd, Except.ok.injEq]
    split
    · next hx => exact ⟨fun h => ⟨Except.ok.inj h, Except.ok.inj h ▸ hx⟩, fun h => congrArg _ h.1⟩
    · next hx => exact ⟨nofun, fun h => absurd (h.1 ▸ h.2) hx⟩

theorem engineDecode_of_decode_error {w : Word} {e : EngineError} (h : decode w = .error e) :
    engineDecode w = .error e := by
  rw [engineDecode, h]

/-- A jump opcode decodes but is not executed (43_jump.md R140, R141). -/
theorem engineDecode_of_not_executed {w : Word} {i : Instr} (h : decode w = .ok i) (hi : i.executed = false) :
    engineDecode w = .error (.unknownOp (opcodeField w)) := by
  simp [engineDecode, h, hi]

/-- The engine's decoder looks at the opcode byte and at what `decode` gives. -/
theorem engineDecode_congr {w v : Word} (ho : opcodeField w = opcodeField v) (hd : decode w = decode v) :
    engineDecode w = engineDecode v := by
  rw [engineDecode, engineDecode, ho, hd]

/-! ### Words that fail decode -/

theorem decode_of_unassigned {w : Word} (h : Unassigned (opcodeField w)) :
    decode w = .error (.unknownOp (opcodeField w)) := by
  rw [decode, OpCode.ofByte_of_unassigned h]

/-- A bad first register field is the error, whatever the second one holds (R76; D7). -/
theorem decode_of_bad_regField {w : Word}
    (hw : opcodeField w = OpCode.popRegister.byte ∨ opcodeField w = OpCode.pushRegister.byte ∨
      opcodeField w = OpCode.addRegister.byte) (hf : 8 ≤ (regField w).toNat) :
    decode w = .error (.unknownReg (regField w)) := by
  rcases hw with h | h | h <;> rw [decode, h, OpCode.ofByte_byte, Reg.ofField_of_ge hf]

/-- A bad second register field is the error where the first one is good (R76; D7). -/
theorem decode_of_bad_reg2Field {w : Word} (hw : opcodeField w = OpCode.addRegister.byte)
    (hf : (regField w).toNat < 8) (hf2 : 8 ≤ (reg2Field w).toNat) :
    decode w = .error (.unknownReg (reg2Field w)) := by
  obtain ⟨r, hr⟩ := Reg.exists_field_of_lt hf
  rw [decode, hw, OpCode.ofByte_byte, hr, Reg.ofField_field, Reg.ofField_of_ge hf2]

/-! ### The fields of an encoded word -/

theorem opcodeField_encode (i : Instr) : opcodeField (encode i) = i.opcode.byte := by
  cases i with
  | push imm => exact Laws.OpcodeByte.opcodeField_imm imm .push
  | signal id => exact Laws.OpcodeByte.opcodeField_imm id .signal
  | nop | popRegister | pushRegister | jmpReg | jmpImm | addStack | addRegister =>
    exact Laws.OpcodeByte.opcodeField_wordOfFields _ _ _

@[simp] theorem immField_imm (imm : Byte) (op : OpCode) : immField (imm ++ op.byte) = imm :=
  highByte_wordOfBytes op.byte imm

@[simp] theorem regField_wordOfFields (hi lo : BitVec 4) (op : OpCode) : regField (wordOfFields hi lo op) = lo := by
  apply BitVec.eq_of_toNat_eq
  have := op.byte.isLt
  rw [regField_toNat, wordOfFields_toNat]
  omega

@[simp] theorem reg2Field_wordOfFields (hi lo : BitVec 4) (op : OpCode) : reg2Field (wordOfFields hi lo op) = hi := by
  apply BitVec.eq_of_toNat_eq
  have := op.byte.isLt
  rw [reg2Field_toNat, wordOfFields_toNat]
  omega

/-- The encoder puts every operand into its field (R81). -/
theorem operandsIn_encode (i : Instr) : i.OperandsIn (encode i) := by
  cases i <;> simp [Instr.OperandsIn, encode]

/-- The round trip (R83), JmpReg of any field among it. -/
theorem decode_encode (i : Instr) : decode (encode i) = .ok i :=
  decode_eq_ok_iff.2 ⟨opcodeField_encode i, operandsIn_encode i⟩

/-! ### The fields of a masked word -/

theorem opcodeField_and (w v : Word) : opcodeField (w &&& v) = opcodeField w &&& opcodeField v :=
  BitVec.extractLsb'_and

theorem immField_and (w v : Word) : immField (w &&& v) = immField w &&& immField v :=
  BitVec.extractLsb'_and

theorem regField_and (w v : Word) : regField (w &&& v) = regField w &&& regField v :=
  BitVec.extractLsb'_and

theorem reg2Field_and (w v : Word) : reg2Field (w &&& v) = reg2Field w &&& reg2Field v :=
  BitVec.extractLsb'_and

/-- Every format uses the whole opcode byte (R71). -/
@[simp] theorem opcodeField_and_usedBits (w : Word) (o : OpCode) : opcodeField (w &&& usedBits o) = opcodeField w := by
  have hmask : opcodeField (usedBits o) = BitVec.allOnes 8 := by cases o <;> rfl
  rw [opcodeField_and, hmask, BitVec.and_allOnes]

theorem immField_and_of_used {w m : Word} (h : immField m = BitVec.allOnes 8) : immField (w &&& m) = immField w := by
  rw [immField_and, h, BitVec.and_allOnes]

theorem regField_and_of_used {w m : Word} (h : regField m = BitVec.allOnes 4) : regField (w &&& m) = regField w := by
  rw [regField_and, h, BitVec.and_allOnes]

theorem reg2Field_and_of_used {w m : Word} (h : reg2Field m = BitVec.allOnes 4) :
    reg2Field (w &&& m) = reg2Field w := by
  rw [reg2Field_and, h, BitVec.and_allOnes]

theorem regField_and_of_unused {w m : Word} (h : regField m = 0#4) : regField (w &&& m) = 0#4 := by
  rw [regField_and, h, BitVec.and_zero]

theorem reg2Field_and_of_unused {w m : Word} (h : reg2Field m = 0#4) : reg2Field (w &&& m) = 0#4 := by
  rw [reg2Field_and, h, BitVec.and_zero]

/-- Clearing the payload bits without a field changes nothing that the decoder reads (R79; D6). -/
theorem decode_and_usedBits {w : Word} {o : OpCode} (h : opcodeField w = o.byte) :
    decode (w &&& usedBits o) = decode w := by
  rw [decode, decode, opcodeField_and_usedBits, h, OpCode.ofByte_byte]
  cases o with
  | nop | jmpImm | addStack => rfl
  | push | signal => rw [immField_and_of_used rfl]
  | popRegister | pushRegister | jmpReg => rw [regField_and_of_used rfl]
  | addRegister => rw [regField_and_of_used rfl, reg2Field_and_of_used rfl]

/-- A word is made of its opcode byte and its two register fields (R72). -/
theorem eq_wordOfFields {w : Word} {o : OpCode} (h : opcodeField w = o.byte) :
    w = wordOfFields (reg2Field w) (regField w) o := by
  apply BitVec.eq_of_toNat_eq
  rw [wordOfFields_toNat, ← h, opcodeField_toNat, regField_toNat, reg2Field_toNat]
  omega

/-- A word is made of its opcode byte and its immediate (R72, R75). -/
theorem eq_imm_append {w : Word} {o : OpCode} (h : opcodeField w = o.byte) : w = immField w ++ o.byte := by
  rw [← h]; exact (wordOfBytes_low_high w).symm

/-- The encoding is the word with its unused bits cleared, where opcode byte and operands are the instruction's. -/
theorem encode_eq_and_usedBits {w : Word} {i : Instr} (ho : opcodeField w = i.opcode.byte) (hi : i.OperandsIn w) :
    encode i = w &&& usedBits i.opcode := by
  have hmask : opcodeField (w &&& usedBits i.opcode) = i.opcode.byte := by rw [opcodeField_and_usedBits, ho]
  cases i
  all_goals simp only [Instr.opcode] at hmask ⊢
  case push | signal => rw [eq_imm_append hmask, immField_and_of_used rfl, hi]; rfl
  case nop | jmpImm | addStack =>
    rw [eq_wordOfFields hmask, regField_and_of_unused rfl, reg2Field_and_of_unused rfl]; rfl
  case popRegister | pushRegister | jmpReg =>
    rw [eq_wordOfFields hmask, regField_and_of_used rfl, reg2Field_and_of_unused rfl, hi]; rfl
  case addRegister =>
    rw [eq_wordOfFields hmask, regField_and_of_used rfl, reg2Field_and_of_used rfl, hi.1, hi.2]; rfl

/-- A worked encoding of R82: its word decodes to the instruction, and its bytes are the word's, low byte first. -/
theorem decode_and_bytes_of_encode_eq {i : Instr} {w : Word} (h : encode i = w) :
    encode i = w ∧ decode w = .ok i ∧ encodeBytes i = [lowByte w, highByte w] :=
  ⟨h, h ▸ decode_encode i, by rw [encodeBytes, h]⟩

end Sys2Proof

namespace Sys2Proof.Machine

/-! ### A step that fetches a word without instruction -/

/-- A decode error is the step's own: FAULTED with it, Pc advanced (40_control_unit.md R100, R104). -/
theorem step_of_decode_error {s : State} {w : Word} {e : EngineError} (hr : s.Ready) (hf : s.Fetches w)
    (hd : decode w = .error e) : step s = .next (s.advance.takeError e) := by
  rw [step_running hr.1 hr.2, issueStep_eq, stepPort_noDecode hf hd]; rfl

/-! ### The assembler -/

theorem except_map_eq_ok_iff {ε α β : Type} {f : α → β} {x : Except ε α} {b : β} :
    x.map f = .ok b ↔ ∃ a, x = .ok a ∧ f a = b := by
  cases x <;> simp [Except.map]

theorem wellFormed_of_map {α : Type} {x : Except AsmError α} {mk : α → Instr} {i : Instr}
    (hmk : ∀ a, (mk a).WellFormed) (h : x.map mk = .ok i) : i.WellFormed := by
  obtain ⟨a, _, rfl⟩ := except_map_eq_ok_iff.1 h
  exact hmk a

theorem jmpReg_field_wellFormed (r : Reg) : (Instr.jmpReg r.field).WellFormed := decide_eq_true r.field_lt

/-- The operands of a line make a well-formed instruction: JmpReg's field is a register's id (R81, R88). -/
theorem parseOperands_wellFormed {o : OpCode} {operands : List (List Char)} {i : Instr}
    (h : parseOperands o operands = .ok i) : i.WellFormed := by
  unfold parseOperands at h
  split at h
  case h_1 | h_2 | h_3 => cases h; rfl
  case h_4 | h_5 | h_6 | h_7 => exact wellFormed_of_map (fun _ => rfl) h
  case h_8 => exact wellFormed_of_map jmpReg_field_wellFormed h  -- JmpReg, the one instruction with a condition
  case h_9 =>
    split at h
    · cases h
    · exact wellFormed_of_map (fun _ => rfl) h
  case h_10 => cases h

/-- An unknown mnemonic fails whatever follows it (R85, R89). -/
theorem parseLine_of_unknown_mnemonic {line mnemonic : List Char} {operands : List (List Char)}
    (hc : line.head? ≠ some ';') (ht : tokens line = mnemonic :: operands)
    (hm : OpCode.fromMnemonic mnemonic = none) : parseLine line = .error .unknownOpCode := by
  unfold parseLine
  split
  · simp at hc
  · simp only [ht, hm]

/-- After a known mnemonic the arity is checked before any operand (R86, R89). -/
theorem parseLine_of_known_mnemonic {line mnemonic : List Char} {operands : List (List Char)} {o : OpCode}
    (hc : line.head? ≠ some ';') (ht : tokens line = mnemonic :: operands)
    (hm : OpCode.fromMnemonic mnemonic = some o) :
    parseLine line = if operands.length = o.arity then (parseOperands o operands).map some else .error .lenErr := by
  unfold parseLine
  split
  · simp at hc
  · simp only [ht, hm]

/-- A line that gives an instruction gives the one its operands make. -/
theorem parseOperands_of_parseLine {line : List Char} {i : Instr} (h : parseLine line = .ok (some i)) :
    ∃ o operands, parseOperands o operands = .ok i := by
  unfold parseLine at h
  split at h
  · cases h
  split at h
  · cases h
  split at h
  · cases h
  split at h
  · obtain ⟨j, hj, hji⟩ := except_map_eq_ok_iff.1 h
    exact ⟨_, _, Option.some.inj hji ▸ hj⟩
  · cases h

theorem assembleLines_cons_error {line : List Char} {rest : List (List Char)} {e : AsmError}
    (h : parseLine line = .error e) : assembleLines (line :: rest) = .error e := by
  rw [assembleLines, h]

/-- A good line does not hide an error after it (R90). -/
theorem assembleLines_cons_ok {line : List Char} {rest : List (List Char)} {r : Option Instr} {e : AsmError}
    (h : parseLine line = .ok r) (hrest : assembleLines rest = .error e) : assembleLines (line :: rest) = .error e := by
  cases r with
  | none => rw [assembleLines, h]; exact hrest
  | some i => rw [assembleLines, h]; simp only [hrest]; rfl

/-- One line's image is its instruction's word, low byte first (R90). -/
theorem assembleLines_singleton {line : List Char} {i : Instr} (h : parseLine line = .ok (some i)) :
    assembleLines [line] = .ok (encodeBytes i) := by
  simp [assembleLines, h, Except.map]

end Sys2Proof.Machine

/-- Settles O2: the encoder puts opcode byte and operands where the decoders look for them. -/
theorem decodeOfEncodeGivesTheInstruction : Obligations.DecodeOfEncodeGivesTheInstruction := by
  unfold Obligations.DecodeOfEncodeGivesTheInstruction
  intro i _
  refine ⟨?_, decode_encode i, fun hx => engineDecode_eq_ok_iff.2 ⟨decode_encode i, hx⟩⟩
  exact OpCode.ofByte_eq_some_iff.2 (opcodeField_encode i)

/-- Settles O3: what the decoder read of the word is all that the encoder writes. -/
theorem encodeOfDecodeClearsOnlyUnusedBits : Obligations.EncodeOfDecodeClearsOnlyUnusedBits := by
  unfold Obligations.EncodeOfDecodeClearsOnlyUnusedBits
  intro w i h _
  obtain ⟨hop, hi⟩ := decode_eq_ok_iff.1 h
  exact encode_eq_and_usedBits hop hi

/-- Settles O4: both words decode as the one with the unused bits cleared. -/
theorem unusedPayloadBitsAreIgnored : Obligations.UnusedPayloadBitsAreIgnored := by
  unfold Obligations.UnusedPayloadBitsAreIgnored
  intro w v o hw hwv
  rw [OpCode.ofByte_eq_some_iff] at hw
  have hop : opcodeField w = opcodeField v := by
    rw [← opcodeField_and_usedBits w o, hwv, opcodeField_and_usedBits]
  have hdec : decode w = decode v := by
    rw [← decode_and_usedBits hw, hwv, decode_and_usedBits (hop ▸ hw)]
  exact ⟨hdec, engineDecode_congr hop hdec⟩

/-- Settles O5: no opcode has such a byte, and the step takes the decoder's error. -/
theorem unassignedOpcodeBytesAreUnknownOp : Obligations.UnassignedOpcodeBytesAreUnknownOp := by
  unfold Obligations.UnassignedOpcodeBytesAreUnknownOp
  intro w h
  have hd := decode_of_unassigned h
  exact ⟨_, rfl, hd, engineDecode_of_decode_error hd, fun s hr hf => ⟨_, step_of_decode_error hr hf hd, rfl⟩⟩

/-- Settles O8: the opcode byte of an executed instruction, with ids of registers in the fields. -/
theorem engineDecodesExactlyTheExecutableWords : Obligations.EngineDecodesExactlyTheExecutableWords := by
  unfold Obligations.EngineDecodesExactlyTheExecutableWords
  intro w
  simp only [engineDecode_eq_ok_iff, decode_eq_ok_iff]
  constructor
  · rintro ⟨i, ⟨hop, hi⟩, hx⟩
    cases i with
    | nop | push | signal | addStack => simp [hop, Instr.opcode, OpCode.byte]
    | popRegister r =>
      have hlt : (regField w).toNat < 8 := hi ▸ r.field_lt
      exact .inr (.inr (.inr (.inr (.inl ⟨.inl hop, hlt⟩))))
    | pushRegister r =>
      have hlt : (regField w).toNat < 8 := hi ▸ r.field_lt
      exact .inr (.inr (.inr (.inr (.inl ⟨.inr hop, hlt⟩))))
    | addRegister r1 r2 =>
      have hlt : (regField w).toNat < 8 := hi.1 ▸ r1.field_lt
      have hlt2 : (reg2Field w).toNat < 8 := hi.2 ▸ r2.field_lt
      exact .inr (.inr (.inr (.inr (.inr ⟨hop, hlt, hlt2⟩))))
    | jmpReg | jmpImm => cases hx
  · rintro (h | h | h | h | ⟨h | h, hr⟩ | ⟨h, hr, hr2⟩)
    · exact ⟨.nop, ⟨h, trivial⟩, rfl⟩
    · exact ⟨.push _, ⟨h, rfl⟩, rfl⟩
    · exact ⟨.signal _, ⟨h, rfl⟩, rfl⟩
    · exact ⟨.addStack, ⟨h, trivial⟩, rfl⟩
    · obtain ⟨r, hr⟩ := Reg.exists_field_of_lt hr
      exact ⟨.popRegister r, ⟨h, hr⟩, rfl⟩
    · obtain ⟨r, hr⟩ := Reg.exists_field_of_lt hr
      exact ⟨.pushRegister r, ⟨h, hr⟩, rfl⟩
    · obtain ⟨r1, hr⟩ := Reg.exists_field_of_lt hr
      obtain ⟨r2, hr2⟩ := Reg.exists_field_of_lt hr2
      exact ⟨.addRegister r1 r2, ⟨h, hr, hr2⟩, rfl⟩

/-- Settles O55: the line's operands make a well-formed instruction, and every instruction has the round trip. -/
theorem assembledLineDecodesToItself : Obligations.AssembledLineDecodesToItself := by
  unfold Obligations.AssembledLineDecodesToItself
  intro line i h
  obtain ⟨o, operands, hops⟩ := parseOperands_of_parseLine h
  exact ⟨parseOperands_wellFormed hops, decode_encode i, assembleLines_singleton h⟩

/-- Settles O56, by induction on the good lines. -/
theorem assemblyAbortsOnFirstMalformedLine : Obligations.AssemblyAbortsOnFirstMalformedLine := by
  unfold Obligations.AssemblyAbortsOnFirstMalformedLine
  intro before after bad e hgood hbad
  induction before with
  | nil => exact assembleLines_cons_error hbad
  | cons line before ih =>
    obtain ⟨r, hr⟩ := hgood line (by simp)
    exact assembleLines_cons_ok hr (ih fun l hl => hgood l (by simp [hl]))

/-- Settles O1: seven encodings, each with the round trip. -/
theorem workedEncodingsDecode : Obligations.WorkedEncodingsDecode := by
  unfold Obligations.WorkedEncodingsDecode
  refine ⟨?_, ?_, ?_, ?_, ?_, ?_, ?_⟩ <;> exact decode_and_bytes_of_encode_eq rfl

/-- Settles O6: a field below 8 is a register's id, any other one is the decoder's error. -/
theorem registerFieldsSelectInOrderOrFail : Obligations.RegisterFieldsSelectInOrderOrFail := by
  unfold Obligations.RegisterFieldsSelectInOrderOrFail
  refine ⟨rfl, fun w => ⟨fun h => ⟨fun hlt => ?_, fun hge => ?_⟩, fun h => ⟨fun hlt => ?_, fun hge => ?_⟩⟩⟩
  · obtain ⟨r, hr⟩ := Reg.exists_field_of_lt hlt
    refine ⟨r, Reg.ofField_eq_ok_iff.2 hr, fun h => ?_, fun h => ?_⟩
    · exact decode_eq_ok_iff.2 ⟨h, hr⟩
    · exact decode_eq_ok_iff.2 ⟨h, hr⟩
  · exact ⟨_, rfl, decode_of_bad_regField (h.imp_right .inl) hge⟩
  · obtain ⟨r1, hr1⟩ := Reg.exists_field_of_lt hlt.1
    obtain ⟨r2, hr2⟩ := Reg.exists_field_of_lt hlt.2
    exact ⟨r1, r2, Reg.ofField_eq_ok_iff.2 hr1, Reg.ofField_eq_ok_iff.2 hr2, decode_eq_ok_iff.2 ⟨h, hr1, hr2⟩⟩
  · rcases le_or_gt 8 (regField w).toNat with hge1 | hlt1
    · exact ⟨_, rfl, decode_of_bad_regField (.inr (.inr h)) hge1⟩
    · exact ⟨_, rfl, decode_of_bad_reg2Field h hlt1 (hge.resolve_left (not_le.2 hlt1))⟩

/-- Settles O7: the errors of `decode`, and UnknownOp of the byte for the two opcodes that are not executed. -/
theorem decodeErrorsReportFirstBadField : Obligations.DecodeErrorsReportFirstBadField := by
  unfold Obligations.DecodeErrorsReportFirstBadField
  intro w
  refine ⟨fun h hf => engineDecode_of_decode_error (decode_of_bad_regField (h.imp_right .inl) hf),
    fun h hf => engineDecode_of_decode_error (decode_of_bad_regField (.inr (.inr h)) hf),
    fun h hf hf2 => engineDecode_of_decode_error (decode_of_bad_reg2Field h hf hf2), fun h => ?_, fun h => ?_,
    fun h => engineDecode_of_decode_error (decode_of_unassigned h)⟩
  · rw [← h]
    exact engineDecode_of_not_executed (decode_eq_ok_iff (i := .jmpReg _).2 ⟨h, rfl⟩) rfl
  · rw [← h]
    exact engineDecode_of_not_executed (decode_eq_ok_iff (i := .jmpImm).2 ⟨h, trivial⟩) rfl

/-- Settles O57: the mnemonic is looked up first, then the operands are counted. -/
theorem assemblerChecksMnemonicThenArity : Obligations.AssemblerChecksMnemonicThenArity := by
  unfold Obligations.AssemblerChecksMnemonicThenArity
  intro line mnemonic operands hc ht
  refine ⟨parseLine_of_unknown_mnemonic hc ht, fun o hm hne => ?_⟩
  rw [parseLine_of_known_mnemonic hc ht hm, if_neg hne]
end

section
/-! PROOFS. The control unit (40_control_unit.md): what one round does at each phase, what an error leaves, and what the
step port does not read. -/

open Sys2Proof Sys2Proof.Machine

namespace Sys2Proof

/-! ### The errors of DECODE -/

/-- The decoder raises no error but UnknownOp and UnknownReg (60_exceptions.md R180). -/
theorem decode_error_name {w : Word} {e : EngineError} (h : decode w = .error e) :
    e.name = .unknownOp ∨ e.name = .unknownReg := by
  have hfield {f : BitVec 4} {e : EngineError} (hf : Reg.ofField f = .error e) : e.name = .unknownReg := by
    rcases Reg.ofField_cases f with ⟨_, hr, _⟩ | ⟨hr, _⟩ <;> rw [hr] at hf <;> cases hf
    rfl
  unfold decode at h
  split at h
  case h_1 => cases h; exact .inl rfl
  case h_2 | h_3 | h_6 | h_7 | h_8 | h_9 => cases h
  case h_4 | h_5 =>
    split at h
    · next hf => cases h; exact .inr (hfield hf)
    · cases h
  case h_10 =>
    split at h
    · next hf => cases h; exact .inr (hfield hf)
    · split at h
      · next hf => cases h; exact .inr (hfield hf)
      · cases h

end Sys2Proof

namespace Sys2Proof.Machine

/-! ### A round of the run loop, phase by phase -/

theorem Memory.exists_readWord_iff {m : Memory} {a : Nat} : (∃ w, m.readWord a = some w) ↔ a + 1 < m.size := by
  simp [Memory.readWord_eq_some]

theorem step_halted {s : State} (hr : s.run = .halted) : step s = .next s := by
  simp [step, hr]

theorem step_faulted {s : State} {e : EngineError} (hr : s.run = .faulted e) : step s = .fault (.faulted e) := by
  simp [step, hr]

/-- The halt flag is tested before the fetch (R100, D13). -/
theorem step_running_halt {s : State} (hr : s.run = .running) (hh : s.halt = true) :
    step s = .next { s with run := .halted } := by
  simp [step, hr, hh]

/-- A fetch out of bounds is the step's error, and nothing else changes (40_control_unit.md R102). -/
theorem step_of_noFetch {s : State} (hr : s.Ready) (hf : s.fetch = none) :
    step s = .next (s.takeError (.pcFault (s.getReg .pc))) := by
  rw [step_running hr.1 hr.2, issueStep_eq, stepPort_noFetch hf, Result.conclude_err]

/-- A decoded word is executed on the machine with Pc advanced (R103, R105). -/
theorem step_of_decode_ok {s : State} {w : Word} {i : Instr} (hr : s.Ready) (hf : s.Fetches w) (hd : decode w = .ok i) :
    step s = exec i s.advance := by
  rw [step_running hr.1 hr.2, issueStep_eq, stepPort_decoded hf hd, exec_eq]

/-- The control unit answers every result with a next state (R100). -/
theorem issueStep_answers (s : State) : ∃ t, issueStep s = .next t :=
  ⟨_, (issueStep_eq s).trans (Result.conclude_next _)⟩

/-! ### Pushes and pops out of bounds -/

/-- A push out of bounds is its instruction's WriteFault, Sp and memory unchanged (R107). -/
theorem State.pushResult_err {s : State} (v : Word) (h : ¬ s.pushAddr.toNat + 1 < s.mem.size) :
    s.pushResult v = .err (.writeFault s.pushAddr) s := by
  rcases s.pushResult_cases v with ⟨h', _⟩ | ⟨_, e⟩
  · exact absurd h' h
  · exact e

/-- A pop out of bounds is PopRegister's ReadFault, Sp and memory unchanged (R108). -/
theorem exec_popRegister_err (r : Reg) {s : State} (h : ¬ s.popAddr.toNat + 1 < s.mem.size) :
    exec (.popRegister r) s = .next (s.takeError (.readFault s.popAddr)) := by
  rcases s.pop_cases with ⟨h', _⟩ | ⟨_, e⟩
  · exact absurd h' h
  · rw [exec_eq]; simp only [runInstr, runPopRegister, e, Result.conclude_err]

/-! ### What an error leaves -/

theorem State.pushResult_eq_err {s t : State} {v : Word} {e : EngineError} (h : s.pushResult v = .err e t) :
    e.name = .writeFault ∧ t = s := by
  rcases s.pushResult_cases v with ⟨_, hp⟩ | ⟨_, hp⟩ <;> rw [hp] at h <;> cases h
  exact ⟨rfl, rfl⟩

theorem runPopRegister_eq_err {r : Reg} {s t : State} {e : EngineError} (h : runPopRegister r s = .err e t) :
    e.name = .readFault ∧ t = s := by
  rcases s.pop_cases with ⟨_, hp⟩ | ⟨_, hp⟩ <;> simp only [runPopRegister, hp] at h <;> cases h
  exact ⟨rfl, rfl⟩

/-- AddStack fails at a pop alone: its push is in bounds, at the address of the second pop (45_arith.md R160). -/
theorem runAddStack_eq_err {s t : State} {e : EngineError} (h : runAddStack s = .err e t) : e.name = .readFault := by
  rcases s.pop_cases with ⟨_, hp⟩ | ⟨_, hp⟩ <;> simp only [runAddStack, hp] at h
  · rcases (s.setReg .sp s.popAddr).pop_cases with ⟨hb, hp⟩ | ⟨_, hp⟩ <;> simp only [hp] at h
    · rw [State.pushResult_ok] at h
      · cases h
      · rw [State.pushAddr, State.getReg_setReg_same]; exact hb
    · cases h; rfl
  · cases h; rfl

/-- An instruction that is no Signal raises errors of its own list alone (60_exceptions.md R180). -/
theorem runInstr_error_mayRaise {i : Instr} (hi : i.isSignal = false) {signal : Byte → State → Result} {s t : State}
    {e : EngineError} (h : runInstr signal i s = .err e t) : e.name ∈ i.mayRaise := by
  cases i with
  | nop | addRegister => cases h
  | push | pushRegister => exact List.mem_singleton.2 (State.pushResult_eq_err h).1
  | popRegister => exact List.mem_singleton.2 (runPopRegister_eq_err h).1
  | jmpReg | jmpImm => cases h; exact List.mem_singleton.2 rfl
  | signal => cases hi
  | addStack => exact List.mem_singleton.2 (runAddStack_eq_err h)

/-- An instruction that raises an error has written no register but Sp, its destination neither. -/
theorem runInstr_error_sameRegsBut {i : Instr} (hi : i.isSignal = false) {signal : Byte → State → Result} {s t : State}
    {e : EngineError} (h : runInstr signal i s = .err e t) : SameRegsBut [.sp] s t := by
  have hregs := runInstr_sameRegsBut hi signal s
  rw [h] at hregs
  cases i with
  | nop | addRegister => cases h
  | push | pushRegister | addStack => exact hregs
  | popRegister => rw [(runPopRegister_eq_err h).2]; exact .refl _ s
  | jmpReg | jmpImm => cases h; exact .refl _ s
  | signal => cases hi

/-- PcFault belongs to FETCH: no instruction but Signal lists it (R180). -/
theorem pcFault_notMem_mayRaise {i : Instr} (hi : i.isSignal = false) : .pcFault ∉ i.mayRaise := by
  cases i with
  | signal => cases hi
  | _ => simp [Instr.mayRaise]

/-- An EXECUTE phase without a handler raises no PcFault, and its errors leave Pc alone (R180, 40_control_unit.md
R106). -/
theorem runInstr_error_of_noHandler {i : Instr} {s t : State} {e : EngineError}
    (hno : ∀ id, i = .signal id → HandlerTable.find s.handlers id = none) (h : runInstr runSignal i s = .err e t) :
    e.name ≠ .pcFault ∧ t.getReg .pc = s.getReg .pc := by
  cases hi : i.isSignal with
  | false =>
    exact ⟨ne_of_mem_of_not_mem (runInstr_error_mayRaise hi h) (pcFault_notMem_mayRaise hi),
      runInstr_error_sameRegsBut hi h .pc (by decide)⟩
  | true =>
    cases i with
    | signal id =>
      simp only [runInstr, runSignal, State.signalTrap_unknown _ (hno id rfl)] at h
      cases h
      exact ⟨nofun, rfl⟩
    | _ => cases hi

/-- Every error of the step port where no handler runs: of the fetch, which leaves all as it was, or of a later phase,
which finds Pc advanced (R102, R104, R106). -/
theorem stepPort_error_cases {s t : State} {e : EngineError} (h : stepPort s = .err e t)
    (hno : ∀ w id, s.Fetches w → decode w = .ok (.signal id) → HandlerTable.find s.handlers id = none) :
    (e.name = .pcFault ∧ t = s) ∨ (e.name ≠ .pcFault ∧ t.getReg .pc = addTwo (s.getReg .pc)) := by
  rw [stepPort] at h
  rcases fourPhases_cases runSignal s with ⟨_, hr⟩ | ⟨w, e', _, hd, hr⟩ | ⟨w, i, hf, hd, hr⟩ <;> rw [hr] at h
  · cases h; exact .inl ⟨rfl, rfl⟩
  · cases h
    have hname : e.name ≠ .pcFault := by rcases decode_error_name hd with hn | hn <;> simp [hn]
    exact .inr ⟨hname, s.advance_pc⟩
  · obtain ⟨hname, hpc⟩ := runInstr_error_of_noHandler (s := s.advance) (fun id hi => hno w id hf (hi ▸ hd)) h
    exact .inr ⟨hname, hpc.trans s.advance_pc⟩

/-! ### Halt flag and run state are not read -/

/-- The machine with another halt flag and another run state. -/
def State.withHaltRun (s : State) (h : Bool) (r : RunState) : State := { s with halt := h, run := r }

/-- The result with another halt flag and another run state in the machine it leaves. -/
def Result.withHaltRun (x : Result) (h : Bool) (r : RunState) : Result :=
  match x with
  | .ok s => .ok (s.withHaltRun h r)
  | .err e s => .err e (s.withHaltRun h r)

@[simp] theorem Result.error_withHaltRun (x : Result) (h : Bool) (r : RunState) :
    (x.withHaltRun h r).error = x.error := by
  cases x <;> rfl

@[simp] theorem Result.state_withHaltRun (x : Result) (h : Bool) (r : RunState) :
    (x.withHaltRun h r).state = x.state.withHaltRun h r := by
  cases x <;> rfl

theorem State.pushResult_withHaltRun (s : State) (v : Word) (h : Bool) (r : RunState) :
    (s.withHaltRun h r).pushResult v = (s.pushResult v).withHaltRun h r := by
  rcases s.pushResult_cases v with ⟨hb, e⟩ | ⟨hb, e⟩ <;> rw [e]
  · exact (s.withHaltRun h r).pushResult_ok v hb
  · exact (s.withHaltRun h r).pushResult_err v hb

theorem State.pop_withHaltRun (s : State) (h : Bool) (r : RunState) :
    (s.withHaltRun h r).pop = s.pop.map fun p => (p.1, p.2.withHaltRun h r) := by
  have hmem : (s.withHaltRun h r).mem = s.mem := rfl
  have haddr : (s.withHaltRun h r).popAddr = s.popAddr := rfl
  rw [State.pop, State.pop, hmem, haddr]
  cases s.mem.readWord s.popAddr.toNat <;> rfl

theorem runPopRegister_withHaltRun (q : Reg) (s : State) (h : Bool) (r : RunState) :
    runPopRegister q (s.withHaltRun h r) = (runPopRegister q s).withHaltRun h r := by
  rw [runPopRegister, runPopRegister, State.pop_withHaltRun]
  cases s.pop <;> rfl

theorem runAddStack_withHaltRun (s : State) (h : Bool) (r : RunState) :
    runAddStack (s.withHaltRun h r) = (runAddStack s).withHaltRun h r := by
  rw [runAddStack, runAddStack, State.pop_withHaltRun]
  cases s.pop with
  | error e => rfl
  | ok p =>
    simp only [Except.map, State.pop_withHaltRun]
    cases p.2.pop with
    | error e => rfl
    | ok q => exact q.2.pushResult_withHaltRun _ h r

/-- EXECUTE without a handler reads neither halt flag nor run state, and leaves both (40_control_unit.md R111). -/
theorem runInstr_withHaltRun {i : Instr} {s : State}
    (hno : ∀ id, i = .signal id → HandlerTable.find s.handlers id = none) (h : Bool) (r : RunState) :
    runInstr runSignal i (s.withHaltRun h r) = (runInstr runSignal i s).withHaltRun h r := by
  cases i with
  | nop | jmpReg | jmpImm | addRegister => rfl
  | push | pushRegister => exact s.pushResult_withHaltRun _ h r
  | popRegister q => exact runPopRegister_withHaltRun q s h r
  | signal id =>
    have hid := hno id rfl
    simp only [runInstr, runSignal, State.signalTrap_unknown (s := s) _ hid,
      State.signalTrap_unknown (s := s.withHaltRun h r) _ hid]
    rfl
  | addStack => exact runAddStack_withHaltRun s h r

/-- A step port call without a handler commutes with a change of halt flag and run state (R111, 60_exceptions.md
R196). -/
theorem stepPort_withHaltRun {s : State}
    (hno : ∀ w id, s.Fetches w → decode w = .ok (.signal id) → HandlerTable.find s.handlers id = none) (h : Bool)
    (r : RunState) : stepPort (s.withHaltRun h r) = (stepPort s).withHaltRun h r := by
  cases hf : s.fetch with
  | none => rw [stepPort_noFetch hf, stepPort_noFetch (s := s.withHaltRun h r) hf]; rfl
  | some w =>
    cases hd : decode w with
    | error e => rw [stepPort_noDecode hf hd, stepPort_noDecode (s := s.withHaltRun h r) hf hd]; rfl
    | ok i =>
      rw [stepPort_decoded hf hd, stepPort_decoded (s := s.withHaltRun h r) hf hd]
      exact runInstr_withHaltRun (s := s.advance) (fun id hi => hno w id hf (hi ▸ hd)) h r

end Sys2Proof.Machine

/-- Settles O21: an error of `decode` ends the step after the advance, a jump opcode's is raised by its meaning. -/
theorem decodeFaultLeavesOnlyPcAdvanced : Obligations.DecodeFaultLeavesOnlyPcAdvanced := by
  unfold Obligations.DecodeFaultLeavesOnlyPcAdvanced
  intro s w e hr hf he
  rcases engineDecode_error he with hd | ⟨i, hd, ⟨f, rfl, rfl⟩ | ⟨rfl, rfl⟩⟩
  · exact step_of_decode_error hr hf hd
  · exact step_of_decode_ok hr hf hd
  · exact step_of_decode_ok hr hf hd

/-- Settles O24: every phase commutes with a change of halt flag and run state. -/
theorem stepPortIgnoresHaltAndRunState : Obligations.StepPortIgnoresHaltAndRunState := by
  unfold Obligations.StepPortIgnoresHaltAndRunState
  intro s h r hno
  change (stepPort (s.withHaltRun h r)).error = _ ∧
    (stepPort (s.withHaltRun h r)).state = (stepPort s).state.withHaltRun h r
  rw [stepPort_withHaltRun hno h r]
  exact ⟨Result.error_withHaltRun _ h r, Result.state_withHaltRun _ h r⟩

/-- Settles O25: only the fetch raises PcFault, and every later phase finds Pc advanced. -/
theorem hostRetryDoesNotReExecute : Obligations.HostRetryDoesNotReExecute := by
  unfold Obligations.HostRetryDoesNotReExecute
  intro s t e h hno
  rcases stepPort_error_cases h hno with ⟨hname, rfl⟩ | ⟨hname, hpc⟩
  · exact ⟨fun _ => ⟨rfl, h⟩, fun hne => absurd hname hne⟩
  · exact ⟨fun heq => absurd heq hname, fun _ => hpc⟩

/-- Settles O19: the advance is the addition of 2 to Pc. -/
theorem stepRunsTheDecodedInstruction : Obligations.StepRunsTheDecodedInstruction := by
  unfold Obligations.StepRunsTheDecodedInstruction
  intro s w i hr hf hd
  exact step_of_decode_ok hr hf hd

/-- Settles O20: a word read succeeds exactly in bounds. -/
theorem fetchMissRaisesPcFault : Obligations.FetchMissRaisesPcFault := by
  unfold Obligations.FetchMissRaisesPcFault
  intro s hr
  exact ⟨Memory.exists_readWord_iff, fun h => step_of_noFetch hr (State.fetch_eq_none.2 h)⟩

/-- Settles O22: one branch of the run loop for each run state. -/
theorem controlUnitHaltsAndStops : Obligations.ControlUnitHaltsAndStops := by
  unfold Obligations.ControlUnitHaltsAndStops
  intro s
  exact ⟨step_running_halt, step_halted, fun e => step_faulted⟩

/-- Settles O23: HALTED stays, a set halt flag enters HALTED, and every issued step is answered. -/
theorem stepAlwaysAnswersUnlessFaulted : Obligations.StepAlwaysAnswersUnlessFaulted := by
  unfold Obligations.StepAlwaysAnswersUnlessFaulted
  intro s hs
  cases hr : s.run with
  | halted => exact ⟨_, step_halted hr⟩
  | faulted e => exact absurd hr (hs e)
  | running =>
    cases hh : s.halt with
    | true => exact ⟨_, step_running_halt hr hh⟩
    | false => rw [step_running hr hh]; exact issueStep_answers s

/-- Settles O29: both instructions end in the push that fails at Sp. -/
theorem pushOutOfBoundsRaisesWriteFault : Obligations.PushOutOfBoundsRaisesWriteFault := by
  unfold Obligations.PushOutOfBoundsRaisesWriteFault
  intro imm r s h
  have hpush (v : Word) : (s.pushResult v).conclude = .next (s.takeError (.writeFault (s.getReg .sp))) := by
    rw [State.pushResult_err v h, Result.conclude_err, State.pushAddr]
  exact ⟨hpush _, hpush _⟩

/-- Settles O31: an underflowing pop's address is 0xFFFE or 0xFFFF, past the last word of memory. -/
theorem popOutOfBoundsRaisesReadFault : Obligations.PopOutOfBoundsRaisesReadFault := by
  unfold Obligations.PopOutOfBoundsRaisesReadFault
  intro r s
  have hfail {a : Word} (ha : s.popAddr = a) (h : ¬ a.toNat + 1 < s.mem.size) :
      exec (.popRegister r) s = .next (s.takeError (.readFault a)) := by
    subst ha; exact exec_popRegister_err r h
  refine ⟨fun h => hfail rfl (Memory.readWord_eq_none.1 h), fun hsp hsize => ?_, fun hsp hlegal => ?_⟩
  · exact hfail (a := 0xFFFE#16) (by rw [State.popAddr, hsp]; rfl) (not_lt.2 (Nat.le_of_lt_succ hsize))
  · exact hfail (a := 0xFFFF#16) (by rw [State.popAddr, hsp]; rfl) (not_lt.2 hlegal.2)
end

section
/-! PROOFS. Nop (41_nop.md): its EXECUTE phase ends in the state it began in. -/

open Sys2Proof Sys2Proof.Machine

/-- Settles O26: Nop's result is `.ok` of the state it began in, and the control unit answers that state (R120). -/
theorem nopHasNoEffect : Obligations.NopHasNoEffect := by
  unfold Obligations.NopHasNoEffect
  intro s
  calc
    exec .nop s = (runInstr runSignal .nop s).conclude := exec_eq .nop s
    _ = (Result.ok s).conclude := by rw [runInstr, runNop]
    _ = .next s := Result.conclude_ok s

end

section
/-! PROOFS. The stack (42_stack.md): the three instructions where their address is in bounds, and the stack law, which
holds because the pushes that follow a push store over none of its bytes. -/

open Sys2Proof Sys2Proof.Machine

namespace Sys2Proof.Machine

/-! ### The instructions that complete -/

/-- A push changes its two bytes and Sp, and nothing else (40_control_unit.md R107). -/
theorem State.pushed_frame (s : State) (v : Word) :
    SameBytesBut (s.getReg .sp).toNat s (s.pushed v) ∧ SameRegsBut [.sp] s (s.pushed v) ∧
      SameControl s (s.pushed v) ∧ (s.pushed v).run = s.run :=
  ⟨fun _ h0 h1 => s.mem.readByte_setWord_other v h0 h1, fun _ hq => s.pushed_other v (List.ne_of_not_mem_cons hq),
    ⟨rfl, rfl, rfl, rfl⟩, rfl⟩

/-- Push in bounds (42_stack.md R125). -/
theorem exec_push_ok (imm : Byte) {s : State} (h : s.pushAddr.toNat + 1 < s.mem.size) :
    exec (.push imm) s = .next (s.pushed (zext16 imm)) := by
  rw [exec_eq, runInstr, runPush, State.pushResult_ok _ h, Result.conclude_ok]

/-- PushRegister in bounds: the value is read before Sp moves (R127). -/
theorem exec_pushRegister_ok (r : Reg) {s : State} (h : s.pushAddr.toNat + 1 < s.mem.size) :
    exec (.pushRegister r) s = .next (s.pushed (s.getReg r)) := by
  rw [exec_eq, runInstr, runPushRegister, State.pushResult_ok _ h, Result.conclude_ok]

/-- A pop answers the word at its address (40_control_unit.md R108). -/
theorem State.pop_ok {s : State} {v : Word} (h : s.mem.readWord s.popAddr.toNat = some v) :
    s.pop = .ok (v, s.setReg .sp s.popAddr) := by
  obtain ⟨hb, hv⟩ := Memory.readWord_eq_some.1 h
  rcases s.pop_cases with ⟨_, e⟩ | ⟨h', _⟩
  · rw [e, hv]
  · exact absurd hb h'

/-- PopRegister in bounds: Sp moves before the register is written (42_stack.md R126). -/
theorem exec_popRegister_ok (r : Reg) {s : State} {v : Word} (h : s.mem.readWord s.popAddr.toNat = some v) :
    exec (.popRegister r) s = .next ((s.setReg .sp s.popAddr).setReg r v) := by
  rw [exec_eq, runInstr, runPopRegister, State.pop_ok h, Result.conclude_ok]

/-! ### A register written twice -/

@[simp] theorem State.setReg_getReg (s : State) (r : Reg) : s.setReg r (s.getReg r) = s := by
  cases r <;> rfl

@[simp] theorem State.setReg_setReg_same (s : State) (r : Reg) (v w : Word) :
    (s.setReg r v).setReg r w = s.setReg r w := by
  cases r <;> rfl

/-! ### Pushes and pops in a row -/

/-- The pushes of a list succeed where the first is in bounds and the others succeed after it. -/
theorem pushAll_cons_eq_ok {v : Word} {vs : List Word} {s t : State} :
    pushAll (v :: vs) s = .ok t ↔ s.pushAddr.toNat + 1 < s.mem.size ∧ pushAll vs (s.pushed v) = .ok t := by
  rcases s.push_cases v with ⟨h, e⟩ | ⟨h, e⟩ <;> simp [pushAll, e, h]

theorem pushAll_sameRegsBut {vs : List Word} {s t : State} (h : pushAll vs s = .ok t) : SameRegsBut [.sp] s t := by
  induction vs generalizing s with
  | nil => cases h; exact .refl _ _
  | cons v vs ih =>
    obtain ⟨-, hrest⟩ := pushAll_cons_eq_ok.1 h
    obtain ⟨-, hregs, -, -⟩ := s.pushed_frame v
    exact fun q hq => (ih hrest q hq).trans (hregs q hq)

/-- Below 65536 bytes of memory Sp never wraps in pushes that succeed (R107). -/
theorem pushAll_sp_bound {vs : List Word} {s t : State} (hsize : s.mem.size < 65536) (h : pushAll vs s = .ok t) :
    (s.getReg .sp).toNat + 2 * vs.length < 65536 := by
  induction vs generalizing s with
  | nil => exact (s.getReg .sp).isLt
  | cons v vs ih =>
    obtain ⟨hb, hrest⟩ := pushAll_cons_eq_ok.1 h
    have hbound := ih (s := s.pushed v) hsize hrest
    rw [State.pushed_sp, addTwo_eq, BitVec.toNat_add] at hbound
    rw [State.pushAddr] at hb hbound
    simp only [BitVec.toNat_ofNat, List.length_cons] at hbound ⊢
    omega

/-- A word write leaves a word that shares no byte with it alone (20_memory.md R50). -/
theorem Memory.readWord_setWord_other (m : Memory) {a b : Nat} (v : Word) (h : b + 1 < a ∨ a + 1 < b) :
    (m.setWord a v).readWord b = m.readWord b := by
  refine Memory.readWord_congr rfl ?_ ?_ <;> rw [Memory.get_setWord, if_neg (by omega), if_neg (by omega)]

/-- Pushes keep a word `k` words below Sp, as long as they do not come round to it: Sp stays at an even, nonzero
distance from it modulo 2^16. -/
theorem pushAll_readWord {vs : List Word} {s t : State} {a : Word} {k : Nat} (hk : 0 < k)
    (hsp : (s.getReg .sp).toNat = (a.toNat + 2 * k) % 65536) (hroom : 2 * (k + vs.length) ≤ 65536)
    (h : pushAll vs s = .ok t) : t.mem.readWord a.toNat = s.mem.readWord a.toNat := by
  induction vs generalizing s k with
  | nil => cases h; rfl
  | cons v vs ih =>
    obtain ⟨-, hrest⟩ := pushAll_cons_eq_ok.1 h
    have ha := a.isLt
    rw [List.length_cons] at hroom
    have hsp' : ((s.pushed v).getReg .sp).toNat = (a.toNat + 2 * (k + 1)) % 65536 := by
      rw [State.pushed_sp, State.pushAddr, addTwo_eq, BitVec.toNat_add, hsp, BitVec.toNat_ofNat]
      omega
    rw [ih k.succ_pos hsp' (by omega) hrest, State.pushed_mem, State.pushAddr]
    exact s.mem.readWord_setWord_other v (by omega)

/-- One more pop after `n` pops gives one more word at the end. -/
theorem popAll_succ {n : Nat} {s t u : State} {vs : List Word} {v : Word} (h : popAll n s = .ok (vs, t))
    (hpop : t.pop = .ok (v, u)) : popAll (n + 1) s = .ok (vs ++ [v], u) := by
  induction n generalizing s vs with
  | zero => cases h; simp [popAll, hpop]
  | succ n ih =>
    rw [popAll] at h ⊢
    rcases s.pop_cases with ⟨_, e⟩ | ⟨_, e⟩ <;> simp only [e] at h ⊢
    · split at h
      · cases h
      · next hn => cases h; rw [ih hn]; rfl
    · cases h

/-- The stack law (42_stack.md R128), by induction on the pushes: the last pop finds the first word where it was pushed,
kept by the pushes after it. -/
theorem popAll_of_pushAll {vs : List Word} {s t : State} (hroom : 2 * vs.length ≤ 65536) (h : pushAll vs s = .ok t) :
    popAll vs.length t = .ok (vs.reverse, t.setReg .sp (s.getReg .sp)) := by
  induction vs generalizing s with
  | nil => cases h; simp [popAll]
  | cons v vs ih =>
    obtain ⟨hb, hrest⟩ := pushAll_cons_eq_ok.1 h
    rw [List.length_cons] at hroom
    have hsp : ((s.pushed v).getReg .sp).toNat = ((s.getReg .sp).toNat + 2 * 1) % 65536 := by
      rw [State.pushed_sp, State.pushAddr, addTwo_eq, BitVec.toNat_add, BitVec.toNat_ofNat]
    have hword : t.mem.readWord (s.getReg .sp).toNat = some v :=
      (pushAll_readWord Nat.one_pos hsp (by omega) hrest).trans (Memory.readWord_setWord v hb)
    have haddr : (t.setReg .sp ((s.pushed v).getReg .sp)).popAddr = s.getReg .sp := by
      rw [State.popAddr, State.getReg_setReg_same, State.pushed_sp, subTwo_addTwo, State.pushAddr]
    have hpop : (t.setReg .sp ((s.pushed v).getReg .sp)).pop = .ok (v, t.setReg .sp (s.getReg .sp)) := by
      rw [State.pop_ok (v := v) (by rw [haddr]; exact hword), haddr, State.setReg_setReg_same]
    rw [List.reverse_cons, List.length_cons]
    exact popAll_succ (ih (by omega) hrest) hpop

end Sys2Proof.Machine

/-- Settles O27: the bytes of the zero-extended immediate are the immediate and 0. -/
theorem pushStoresZeroExtendedImmediate : Obligations.PushStoresZeroExtendedImmediate := by
  unfold Obligations.PushStoresZeroExtendedImmediate
  intro imm s h
  have hbytes : zext16 imm = wordOfBytes imm 0x00#8 := zext16_eq_append imm
  refine ⟨s.pushed (zext16 imm), exec_push_ok imm h, s.pushed_sp _, ?_, ?_, s.pushed_frame _⟩
  · rw [State.pushed_mem, State.pushAddr, Memory.readByte_setWord_low _ h, hbytes, lowByte_wordOfBytes]
  · rw [State.pushed_mem, State.pushAddr, Memory.readByte_setWord_high _ h, hbytes, highByte_wordOfBytes]

/-- Settles O28: the word written reads back. -/
theorem pushRegisterStoresTheRegister : Obligations.PushRegisterStoresTheRegister := by
  unfold Obligations.PushRegisterStoresTheRegister
  intro r s h
  exact ⟨s.pushed (s.getReg r), exec_pushRegister_ok r h, s.pushed_sp _, Memory.readWord_setWord _ h, s.pushed_frame _⟩

/-- Settles O30: of the two register writes the one to `r` is last, so it holds of Sp too. -/
theorem popRegisterLoadsTheStackTop : Obligations.PopRegisterLoadsTheStackTop := by
  unfold Obligations.PopRegisterLoadsTheStackTop
  intro r s v h
  refine ⟨(s.setReg .sp s.popAddr).setReg r v, exec_popRegister_ok r h, State.getReg_setReg_same _ _ _, fun hr => ?_, ?_,
    fun _ => rfl, ⟨rfl, rfl, rfl, rfl⟩, rfl⟩
  · rw [State.getReg_setReg_other _ _ hr.symm, State.getReg_setReg_same, State.popAddr, subTwo_eq]
  · exact ((SameRegsBut.refl _ s).setReg (by simp) _).setReg (by simp) _

/-- Settles O54: in a memory below 65536 bytes the pushes that succeed are no more than the law allows. -/
theorem stackIsLastInFirstOut : Obligations.StackIsLastInFirstOut := by
  unfold Obligations.StackIsLastInFirstOut
  intro vs s t hroom h
  have hlen : 2 * vs.length ≤ 65536 := by
    rcases hroom with hsize | hlen
    · have := pushAll_sp_bound hsize h
      omega
    · exact hlen
  exact ⟨t.setReg .sp (s.getReg .sp), popAll_of_pushAll hlen h, State.getReg_setReg_same _ _ _,
    (pushAll_sameRegsBut h).setReg (by simp) _, fun _ => rfl⟩
end

section
/-! PROOFS. The jump opcodes (43_jump.md): the two instructions the step does not execute (30_encoding.md R73) have one
effect, the UnknownOp of their opcode byte. -/

open Sys2Proof Sys2Proof.Machine

namespace Sys2Proof.Machine

/-- An instruction the step does not execute is an unknown opcode to EXECUTE, as it is to the engine's decoder
(43_jump.md R140, R141; `engineDecode_of_not_executed`). -/
theorem exec_of_not_executed {i : Instr} (h : i.executed = false) (s : State) :
    exec i s = .next (s.takeError (.unknownOp i.opcode.byte)) := by
  cases i with
  | jmpReg field => rw [exec_eq, runInstr, runJmpReg, Result.conclude_err, Instr.opcode]
  | jmpImm => rw [exec_eq, runInstr, runJmpImm, Result.conclude_err, Instr.opcode]
  | nop | push | popRegister | pushRegister | signal | addStack | addRegister => cases h

end Sys2Proof.Machine

/-- Settles O35: neither instruction is executed, whatever JmpReg's field, and their opcode bytes are 0x07 and 0x08. -/
theorem jumpOpcodesRaiseUnknownOp : Obligations.JumpOpcodesRaiseUnknownOp := by
  unfold Obligations.JumpOpcodesRaiseUnknownOp
  intro field s
  exact ⟨exec_of_not_executed (i := .jmpReg field) rfl s, exec_of_not_executed (i := .jmpImm) rfl s⟩
end

section
/-! PROOFS. Signal (44_signal.md): what the run of a handler leaves of the step, what an unknown handler's free value
decides, and how a step that a handler calls goes back to it. -/

open Sys2Proof Sys2Proof.Machine

namespace Sys2Proof.Machine

/-! ### What no handler changes -/

/-- No handler changes the capacity or the run state, its nested steps included (20_memory.md R45, 40_control_unit.md
R100). -/
theorem runHandler_nestedStep_size_run (depth : Nat) (h : Handler) (last : Option EngineError) (s : State) :
    (runHandler (nestedStep depth) h last s).state.mem.size = s.mem.size ∧
      (runHandler (nestedStep depth) h last s).state.run = s.run :=
  have hports := keptByPorts_size_run s.mem.size s.run
  runHandler_keeps hports (nestedStep_keeps hports (fun _ _ _ hu => hu) depth) h last s ⟨rfl, rfl⟩

/-! ### An unknown handler -/

/-- The machine a free value leaves, its result aside (44_signal.md R151). -/
def HandlerOutcome.left (o : HandlerOutcome) (s : State) : State :=
  { s with
    regs := o.regs
    halt := o.halt
    handlers := HandlerTable.ofEntries o.handlers
    mem := s.mem.writeEach o.writes
    freeIndex := s.freeIndex + 1 }

/-- A free value leaves its machine, and enters FAULTED where its result is an error (40_control_unit.md R100). -/
theorem HandlerOutcome.apply_conclude (o : HandlerOutcome) (s : State) :
    (o.apply s).conclude = .next { o.left s with run := o.result.elim s.run .faulted } := by
  unfold HandlerOutcome.apply
  cases o.result <;> rfl

/-- A byte in bounds holds the last of the writes to it (20_memory.md R48). -/
theorem Memory.readByte_writeEach_last {m : Memory} {writes : List Host.Cell} {b : Nat} {v : Byte} (hb : b < m.size)
    (h : (writes.reverse.find? fun c => c.1 == b) = some (b, v)) : (m.writeEach writes).readByte b = some v := by
  refine Memory.readByte_eq_some.2 ⟨by rwa [Memory.writeEach_size], ?_⟩
  rw [Memory.get_writeEach, if_pos hb, h]
  rfl

/-- A byte without a write reads the same (R48). -/
theorem Memory.readByte_writeEach_other (m : Memory) {writes : List Host.Cell} {b : Nat}
    (h : (writes.reverse.find? fun c => c.1 == b) = none) : (m.writeEach writes).readByte b = m.readByte b := by
  refine Memory.readByte_congr (m.writeEach_size writes) ?_
  rw [Memory.get_writeEach, h]
  exact ite_self _

/-! ### A handler that calls a step -/

/-- A Signal whose handler calls a step that returns Ok goes on with the handler's Ok way (60_exceptions.md R189). -/
theorem exec_signal_step_ok {id : Byte} {s t : State} {onOk onErr : Handler}
    (hh : HandlerTable.find s.handlers id = some (.step onOk onErr))
    (hn : nestedStep Config.nestingLimit s = .ok t) :
    exec (.signal id) s = (runHandler (nestedStep Config.nestingLimit) onOk none t).conclude := by
  rw [exec_signal_known hh]; simp only [runHandler, hn]

/-- Where the step returns an error, the handler goes on with its other way and may return that error (R189). -/
theorem exec_signal_step_err {id : Byte} {s t : State} {onOk onErr : Handler} {e : EngineError}
    (hh : HandlerTable.find s.handlers id = some (.step onOk onErr))
    (hn : nestedStep Config.nestingLimit s = .err e t) :
    exec (.signal id) s = (runHandler (nestedStep Config.nestingLimit) onErr (some e) t).conclude := by
  rw [exec_signal_known hh]; simp only [runHandler, hn]

/-- A Signal whose handler calls one step and returns its result does what the step does (44_signal.md R152). -/
theorem exec_signal_returnStepResult {id : Byte} {s : State}
    (hh : HandlerTable.find s.handlers id = some (.step .returnStepResult .returnStepResult)) :
    exec (.signal id) s = (nestedStep Config.nestingLimit s).conclude := by
  cases hn : nestedStep Config.nestingLimit s with
  | ok t => rw [exec_signal_step_ok hh hn]; rfl
  | err e t => rw [exec_signal_step_err hh hn]; rfl

/-- A handler that calls no step runs the same whatever a step would do. -/
theorem runHandler_stepFree {h : Handler} (hfree : h.stepFree = true) (nested nested' : State → Result)
    (last : Option EngineError) (s : State) : runHandler nested h last s = runHandler nested' h last s := by
  induction h generalizing last s with
  | returnOk | returnErr | returnStepResult | unknown => rfl
  | step => cases hfree
  | setRegister _ _ _ ih | copyRegister _ _ _ ih | setHalt _ _ ih => exact ih hfree last _
  | defineHandler _ _ _ _ ih => exact ih hfree last _
  | ifRegister _ _ _ _ iha ihb | ifHalt _ _ iha ihb | loadByte _ _ _ _ iha ihb | loadWord _ _ _ _ iha ihb
  | writeByte _ _ _ _ iha ihb | writeWord _ _ _ _ iha ihb | storeByte _ _ _ _ iha ihb
  | storeWord _ _ _ _ iha ihb =>
    obtain ⟨ha, hb⟩ := Bool.and_eq_true_iff.1 hfree
    simp only [runHandler, iha ha, ihb hb]

end Sys2Proof.Machine

/-- Settles O37: the handler's result is what the Signal answers, and no handler changes capacity or run state. -/
theorem signalWithHandlerCompletes : Obligations.SignalWithHandlerCompletes := by
  unfold Obligations.SignalWithHandlerCompletes
  intro id h s hh
  rw [exec_signal_known hh]
  obtain ⟨hsize, hrun⟩ := runHandler_nestedStep_size_run Config.nestingLimit h none s
  cases hr : runHandler (nestedStep Config.nestingLimit) h none s with
  | ok t =>
    rw [hr] at hsize hrun
    exact ⟨t, rfl, hsize, .inl ⟨rfl, hrun⟩⟩
  | err e u =>
    rw [hr] at hsize hrun
    exact ⟨u.takeError e, rfl, hsize, .inr ⟨e, u, rfl, hrun, rfl⟩⟩

/-- Settles O41: each field of the machine the free value leaves, memory and table read entry by entry. -/
theorem unknownHandlerOutcomeIsTheFreeValue : Obligations.UnknownHandlerOutcomeIsTheFreeValue := by
  unfold Obligations.UnknownHandlerOutcomeIsTheFreeValue
  intro id s key hh
  refine ⟨Config.unknownHandler key s.freeIndex s.view, _, rfl,
    (exec_signal_known hh).trans (HandlerOutcome.apply_conclude _ s), rfl, rfl, rfl, ?_, ?_, ?_, ?_, ?_, ?_⟩
  · exact HandlerTable.find_ofEntries _
  · exact s.mem.writeEach_size _
  · exact fun b hb v => Memory.readByte_writeEach_last hb
  · exact fun b => s.mem.readByte_writeEach_other
  · intro h; simp only [h, Option.elim_none]
  · intro e h; simp only [h, Option.elim_some]

/-- Settles O43: the nested step of such a word is the instruction, with Pc advanced. -/
theorem nestedStepRunsTheNextInstruction : Obligations.NestedStepRunsTheNextInstruction := by
  unfold Obligations.NestedStepRunsTheNextInstruction
  intro id s w i hh hf hd hi
  calc
    exec (.signal id) s = (nestedStep Config.nestingLimit s).conclude := exec_signal_returnStepResult hh
    _ = (runInstr runSignal i s.advance).conclude := congrArg _ (nestedStep_noSignal (Config.nestingLimit - 1) hf hd hi)
    _ = exec i s.advance := (exec_eq i s.advance).symm

/-- Settles O59: the nested step is the trap of the inner Signal, and a handler without steps does not see the depth. -/
theorem nestedSignalEntersItsOwnHandler : Obligations.NestedSignalEntersItsOwnHandler := by
  unfold Obligations.NestedSignalEntersItsOwnHandler
  intro id k s w onOk onErr hh hf hd
  have htrap := nestedStep_signal (Config.nestingLimit - 1) hf hd
  refine ⟨fun hk => exec_signal_step_err hh (htrap.trans (State.signalTrap_unknown (s := s.advance) _ hk)),
    fun g hg => ?_⟩
  have hinner := htrap.trans (State.signalTrap_known (s := s.advance) _ hg)
  refine ⟨fun t ht => exec_signal_step_ok hh (hinner.trans ht),
    fun e t ht => exec_signal_step_err hh (hinner.trans ht), ?_⟩
  rintro hfree rfl rfl
  calc
    exec (.signal id) s = (nestedStep Config.nestingLimit s).conclude := exec_signal_returnStepResult hh
    _ = (runHandler (nestedStep (Config.nestingLimit - 1)) g none s.advance).conclude := congrArg _ hinner
    _ = (runHandler (nestedStep Config.nestingLimit) g none s.advance).conclude :=
      congrArg _ (runHandler_stepFree hfree _ _ none _)
    _ = exec (.signal k) s.advance := (exec_signal_known (s := s.advance) hg).symm

/-- Settles O36: the trap without a handler. -/
theorem signalWithoutHandlerRaisesUnknownSignal : Obligations.SignalWithoutHandlerRaisesUnknownSignal := by
  unfold Obligations.SignalWithoutHandlerRaisesUnknownSignal
  intro id s h
  exact exec_signal_unknown h

/-- Settles O38: three handlers run on the machine as the Signal finds it. -/
theorem signalRunsTheHandlerOnTheMachine : Obligations.SignalRunsTheHandlerOnTheMachine := by
  unfold Obligations.SignalRunsTheHandlerOnTheMachine
  intro id s
  exact ⟨fun h => exec_signal_known h, fun v h => exec_signal_known h, fun r h => exec_signal_known h⟩
end

section
/-! PROOFS. Arithmetic (45_arith.md): AddStack as two pops and a push at the address of the second one, and
AddRegister. -/

open Sys2Proof Sys2Proof.Machine

namespace Sys2Proof.Machine

/-! ### The pops of AddStack -/

/-- A pop out of bounds raises ReadFault of its address (40_control_unit.md R108). -/
theorem State.pop_err {s : State} (h : s.mem.readWord s.popAddr.toNat = none) :
    s.pop = .error (.readFault s.popAddr) := by
  rw [State.pop, h]

/-- The second of two pops is at `Sp - 4` (R108). -/
theorem State.popAddr_setReg_popAddr (s : State) : (s.setReg .sp s.popAddr).popAddr = s.getReg .sp - 4#16 :=
  calc
    (s.setReg .sp s.popAddr).popAddr = s.getReg .sp - 2#16 - 2#16 := by
      rw [State.popAddr, State.getReg_setReg_same, State.popAddr, subTwo_eq, subTwo_eq]
    _ = s.getReg .sp - 4#16 := by bv_omega

/-! ### AddStack, by the pop that fails -/

/-- AddStack fails at its first pop (45_arith.md R160). -/
theorem exec_addStack_first_err {s : State} (h : s.mem.readWord s.popAddr.toNat = none) :
    exec .addStack s = .next (s.takeError (.readFault s.popAddr)) := by
  rw [exec_eq, runInstr, runAddStack, State.pop_err h, Result.conclude_err]

/-- AddStack fails at its second pop, on the machine as the first one left it (R160, 60_exceptions.md R183). -/
theorem exec_addStack_second_err {s : State} {a : Word} (ha : s.mem.readWord s.popAddr.toNat = some a)
    (h : s.mem.readWord (s.getReg .sp - 4#16).toNat = none) :
    exec .addStack s = .next ((s.setReg .sp s.popAddr).takeError (.readFault (s.getReg .sp - 4#16))) := by
  have hpop : (s.setReg .sp s.popAddr).pop = .error (.readFault (s.getReg .sp - 4#16)) := by
    rw [State.pop_err (by rw [State.popAddr_setReg_popAddr]; exact h), State.popAddr_setReg_popAddr]
  simp only [exec_eq, runInstr, runAddStack, State.pop_ok ha, hpop, Result.conclude_err]

/-- AddStack completes with a push of the sum where the second pop read, which is in bounds (R160). -/
theorem exec_addStack_ok {s : State} {a b : Word} (ha : s.mem.readWord s.popAddr.toNat = some a)
    (hb : s.mem.readWord (s.getReg .sp - 4#16).toNat = some b) :
    exec .addStack s = .next ((s.setReg .sp (s.getReg .sp - 4#16)).pushed (a + b)) := by
  have hpop : (s.setReg .sp s.popAddr).pop = .ok (b, s.setReg .sp (s.getReg .sp - 4#16)) := by
    rw [State.pop_ok (v := b) (by rw [State.popAddr_setReg_popAddr]; exact hb), State.popAddr_setReg_popAddr,
      State.setReg_setReg_same]
  have hpush : (s.setReg .sp (s.getReg .sp - 4#16)).pushResult (a + b) =
      .ok ((s.setReg .sp (s.getReg .sp - 4#16)).pushed (a + b)) :=
    State.pushResult_ok _ (by rw [State.pushAddr, State.getReg_setReg_same]; exact (Memory.readWord_eq_some.1 hb).1)
  simp only [exec_eq, runInstr, runAddStack, State.pop_ok ha, hpop, add16_eq, hpush, Result.conclude_ok]

/-! ### A push after Sp is moved -/

/-- A push with Sp moved to `p` stores there. -/
theorem State.pushed_setReg_sp_mem (s : State) (p v : Word) :
    ((s.setReg .sp p).pushed v).mem = s.mem.setWord p.toNat v := by
  rw [State.pushed_mem, State.pushAddr, State.getReg_setReg_same, State.setReg_mem]

/-- A push with Sp moved to `p` changes the word at `p` and Sp, and nothing else (40_control_unit.md R107). -/
theorem State.pushed_setReg_sp_frame (s : State) (p v : Word) :
    SameBytesBut p.toNat s ((s.setReg .sp p).pushed v) ∧ SameRegsBut [.sp] s ((s.setReg .sp p).pushed v) ∧
      SameControl s ((s.setReg .sp p).pushed v) ∧ ((s.setReg .sp p).pushed v).run = s.run := by
  obtain ⟨hbytes, hregs, hcontrol, hrun⟩ := (s.setReg .sp p).pushed_frame v
  rw [State.getReg_setReg_same] at hbytes
  have hmoved : SameRegsBut [.sp] s (s.setReg .sp p) := (SameRegsBut.refl _ s).setReg (by simp) p
  exact ⟨hbytes, fun q hq => (hregs q hq).trans (hmoved q hq), hcontrol, hrun⟩

/-- The words two and four bytes below `x` modulo 2^16 share no byte, also where the lower address wraps. -/
theorem words_below_disjoint (x : Word) :
    (x - 2#16).toNat + 1 < (x - 4#16).toNat ∨ (x - 4#16).toNat + 1 < (x - 2#16).toNat := by
  bv_omega

end Sys2Proof.Machine

/-- Settles O32: the push stores the sum at S - 4, which is apart from the word at S - 2, and moves Sp up by 2. -/
theorem addStackReplacesTwoWordsByTheirSum : Obligations.AddStackReplacesTwoWordsByTheirSum := by
  unfold Obligations.AddStackReplacesTwoWordsByTheirSum
  intro s a b ha hb
  refine ⟨(s.setReg .sp (s.getReg .sp - 4#16)).pushed (a + b), exec_addStack_ok ha hb, ?_, ?_, ?_,
    s.pushed_setReg_sp_frame _ _⟩
  · rw [State.pushed_sp, State.pushAddr, State.getReg_setReg_same, addTwo_eq]
    bv_omega
  · rw [State.pushed_setReg_sp_mem]
    exact Memory.readWord_setWord _ (Memory.readWord_eq_some.1 hb).1
  · rw [State.pushed_setReg_sp_mem, s.mem.readWord_setWord_other _ (words_below_disjoint _)]
    exact ha

/-- Settles O33: one clause for each pop. -/
theorem addStackFaultKeepsFirstPop : Obligations.AddStackFaultKeepsFirstPop := by
  unfold Obligations.AddStackFaultKeepsFirstPop
  intro s
  exact ⟨exec_addStack_first_err, fun ⟨_, ha⟩ hb => exec_addStack_second_err ha hb⟩

/-- Settles O34: both registers are read before the one write, so it holds of `r1 = r2` too. -/
theorem addRegisterAddsInPlace : Obligations.AddRegisterAddsInPlace := by
  unfold Obligations.AddRegisterAddsInPlace
  intro r1 r2 s
  refine ⟨s.setReg r1 (s.getReg r1 + s.getReg r2), ?_, State.getReg_setReg_same _ _ _,
    (SameRegsBut.refl _ s).setReg (by simp) _, fun _ => rfl, ⟨rfl, rfl, rfl, rfl⟩, rfl⟩
  rw [exec_eq, runInstr, runAddRegister, add16_eq, Result.conclude_ok]
end

section
/-! PROOFS. Exceptions (60_exceptions.md): who raises an error, what an error leaves, and what a handler makes of the
result of its nested step. -/

open Sys2Proof Sys2Proof.Machine

namespace Sys2Proof.Machine

/-! ### What an instruction's result is to the run state -/

/-- An instruction that is no Signal does not touch the run state, also where it raises an error: FAULTED is the control
unit's reaction (40_control_unit.md R100). -/
theorem runInstr_run {i : Instr} (hi : i.isSignal = false) (signal : Byte → State → Result) (s : State) :
    (runInstr signal i s).state.run = s.run := by
  rw [runInstr_noSignal hi signal fun _ => .ok]
  exact runInstr_keeps (P := fun u => u.run = s.run) (signal := fun _ => .ok) (fun _ _ _ h => h) (fun _ _ _ h => h)
    (fun _ _ h => h) i s rfl

/-- The machine a result leaves is the state the control unit answers, the run state aside. -/
theorem Result.state_eq_of_conclude {x : Result} {t : State} (h : x.conclude = .next t) :
    x.state = { t with run := x.state.run } := by
  cases x with
  | ok s => cases h; rfl
  | err e s => cases h; rfl

/-- A result enters FAULTED(E) only where it is the error E, unless its machine is in FAULTED(E) already. -/
theorem Result.eq_err_of_conclude_faulted {x : Result} {t : State} {e : EngineError} (h : x.conclude = .next t)
    (ht : t.run = .faulted e) (hx : x.state.run ≠ .faulted e) : x = .err e x.state := by
  cases x with
  | ok s => cases h; exact absurd ht hx
  | err e' s => cases h; cases ht; rfl

/-! ### A handler that returns Ok whatever its nested step returns -/

/-- Such a handler leaves the machine as the nested step left it, and drops the step's error (60_exceptions.md R189). -/
theorem exec_signal_ignoreStepResult {id : Byte} {s : State}
    (hh : HandlerTable.find s.handlers id = some (.step .returnOk .returnOk)) :
    exec (.signal id) s = .next (nestedStep Config.nestingLimit s).state := by
  cases hn : nestedStep Config.nestingLimit s with
  | ok t => exact exec_signal_step_ok hh hn
  | err e t => exact exec_signal_step_err hh hn

/-- A nested step of a word that the engine's decoder rejects leaves only Pc advanced, the jump opcodes' words included
(R183, 30_encoding.md R76). -/
theorem nestedStep_engineDecode_error (depth : Nat) {s : State} {w : Word} {e : EngineError} (hf : s.Fetches w)
    (he : engineDecode w = .error e) : nestedStep (depth + 1) s = .err e s.advance := by
  rcases engineDecode_error he with hd | ⟨i, hd, ⟨f, rfl, rfl⟩ | ⟨rfl, rfl⟩⟩
  · exact nestedStep_noDecode depth hf hd
  · exact nestedStep_noSignal depth hf hd rfl
  · exact nestedStep_noSignal depth hf hd rfl

/-- A nested step of an instruction that is no Signal leaves what the instruction leaves in the run loop, in the run
state of before (R183, R189). -/
theorem nestedStep_state_of_exec (depth : Nat) {s t : State} {w : Word} {i : Instr} (hf : s.Fetches w)
    (hd : decode w = .ok i) (hi : i.isSignal = false) (h : exec i s.advance = .next t) :
    (nestedStep (depth + 1) s).state = { t with run := s.run } := by
  rw [exec_eq] at h
  rw [nestedStep_noSignal depth hf hd hi, Result.state_eq_of_conclude h, runInstr_run hi, State.advance_run]

end Sys2Proof.Machine

/-- Settles O44: the handler leaves what its nested step left, which each phase that may end the step determines. -/
theorem handlerMayIgnoreNestedFault : Obligations.HandlerMayIgnoreNestedFault := by
  unfold Obligations.HandlerMayIgnoreNestedFault
  intro id s hh
  have hexec {w : Word} {i : Instr} {t : State} (hf : s.Fetches w) (hd : decode w = .ok i) (hi : i.isSignal = false)
      (h : exec i s.advance = .next t) : exec (.signal id) s = .next { t with run := s.run } := by
    rw [exec_signal_ignoreStepResult hh, Config.nestingLimit, nestedStep_state_of_exec _ hf hd hi h]
  refine ⟨fun hf => ?_, fun w e hf he => ?_, fun w i t => hexec, fun w hf hd ⟨a, ha⟩ hb => ?_⟩
  · rw [exec_signal_ignoreStepResult hh, Config.nestingLimit, nestedStep_noFetch _ hf, Result.state_err]
  · rw [exec_signal_ignoreStepResult hh, Config.nestingLimit, nestedStep_engineDecode_error _ hf he]
    rfl
  · exact hexec hf hd rfl (exec_addStack_second_err (s := s.advance) ha hb)

/-- Settles O49: FAULTED(e) comes from the instruction's own error, and each instruction's errors are listed. -/
theorem errorsComeOnlyFromTheirRaisers : Obligations.ErrorsComeOnlyFromTheirRaisers := by
  unfold Obligations.ErrorsComeOnlyFromTheirRaisers
  intro i s t e hi hs h ht
  rw [exec_eq] at h
  have hrun : (runInstr runSignal i s).state.run ≠ .faulted e := by rw [runInstr_run hi]; exact hs e
  exact runInstr_error_mayRaise hi (Result.eq_err_of_conclude_faulted h ht hrun)

/-- Settles O40: the handler's result is its error on the machine with the register written. -/
theorem handlerErrorKeepsItsWrites : Obligations.HandlerErrorKeepsItsWrites := by
  unfold Obligations.HandlerErrorKeepsItsWrites
  intro id s r v e hh
  calc
    exec (.signal id) s = (Result.err e (s.setReg r v)).conclude := exec_signal_known hh
    _ = .next ((s.setReg r v).takeError e) := Result.conclude_err e _
end

section
/-! PROOFS. Reset and hazards (70_reset_and_hazards.md): what a launch leaves of the machine after reset, and how the
reference host's halt handler ends a run. -/

open Sys2Proof Sys2Proof.Machine

namespace Sys2Proof.Machine

/-! ### Reset -/

/-- The machine after reset satisfies the invariant wherever its capacity is legal (R220, 00_scope.md R5). -/
theorem State.resetWith_inv {size : Nat} (h : (Memory.fresh size).sizeLegal) : (State.resetWith size).Inv :=
  ⟨Memory.fresh_wf size, h, List.Pairwise.nil⟩

/-! ### Launch -/

/-- A load fails exactly where the sequence does not fit (20_memory.md R58). -/
theorem Memory.bulkLoad_eq_none {m : Memory} {bytes : List Byte} {offset : Nat} :
    m.bulkLoad bytes offset = none ↔ m.size < offset + bytes.length := by
  simp [Memory.bulkLoad]

/-- The machine a launch leaves where its image fits (R222). -/
def Launch.machine (l : Launch) : State :=
  { State.resetWith l.memSize with
    mem := (Memory.fresh l.memSize).setAll l.image 0
    handlers := HandlerTable.ofEntries l.handlers }.setReg .sp l.spInit

theorem launch_of_fits {l : Launch} (hmin : 2 ≤ l.memSize) (hmax : l.memSize ≤ 65536)
    (hfits : l.image.length ≤ l.memSize) : launch l = .next l.machine := by
  have hload : (Memory.fresh l.memSize).bulkLoad l.image 0 = some ((Memory.fresh l.memSize).setAll l.image 0) :=
    Memory.bulkLoad_eq_some.2 ⟨by simpa using hfits, rfl⟩
  rw [launch, if_pos ⟨hmin, hmax⟩, hload]
  rfl

theorem launch_of_not_fits {l : Launch} (hmin : 2 ≤ l.memSize) (hmax : l.memSize ≤ 65536)
    (hlong : l.memSize < l.image.length) : launch l = .refused .imageDoesNotFit := by
  rw [launch, if_pos ⟨hmin, hmax⟩, Memory.bulkLoad_eq_none.2 (by simpa using hlong)]

theorem Launch.machine_size (l : Launch) : l.machine.mem.size = l.memSize := Memory.setAll_size _ l.image 0

/-- The image stands at address 0 (R222). -/
theorem Launch.machine_readByte_image {l : Launch} (hfits : l.image.length ≤ l.memSize) {i : Nat} {v : Byte}
    (hv : l.image[i]? = some v) : l.machine.mem.readByte i = some v := by
  have h := Memory.readByte_setAll_loaded (m := Memory.fresh l.memSize) (offset := 0) (by simpa using hfits) hv
  rwa [Nat.zero_add] at h

/-- Above the image memory is as reset left it, zero (R222, 20_memory.md R63). -/
theorem Launch.machine_readByte_above {l : Launch} {a : Nat} (himage : l.image.length ≤ a) (ha : a < l.memSize) :
    l.machine.mem.readByte a = some 0x00#8 :=
  calc
    l.machine.mem.readByte a = (Memory.fresh l.memSize).readByte a :=
      Memory.readByte_setAll_other _ (.inr (by simpa using himage))
    _ = some 0x00#8 := Memory.readByte_eq_some.2 ⟨ha, rfl⟩

/-- A launch writes no register but Sp, so the others hold reset's zero (R222, 10_state.md R24). -/
theorem Launch.machine_getReg_other (l : Launch) {r : Reg} (h : r ≠ .sp) : l.machine.getReg r = 0#16 :=
  (State.getReg_setReg_other _ l.spInit h).trans (Regs.zero_get r)

/-- Loading the image and registering the handlers keep memory and table in their canonical forms. -/
theorem Launch.machine_inv {l : Launch} (hmin : 2 ≤ l.memSize) (hmax : l.memSize ≤ 65536)
    (hfits : l.image.length ≤ l.memSize) : l.machine.Inv := by
  refine ⟨?_, ?_, HandlerTable.ofEntries_wf l.handlers⟩
  · exact Memory.setAll_wf l.image 0 (Memory.fresh_wf l.memSize) (by simpa using hfits)
  · rw [Memory.sizeLegal, l.machine_size]
    exact ⟨hmin, hmax⟩

/-! ### The reference host's halt handler -/

/-- A Signal with the halt handler sets the halt flag and changes nothing else (R224). -/
theorem exec_signal_haltHandler {id : Byte} {s : State} (h : HandlerTable.find s.handlers id = some haltHandler) :
    exec (.signal id) s = .next { s with halt := true } :=
  exec_signal_known h

end Sys2Proof.Machine

/-- Settles O17: the machine the launch leaves, read field by field. -/
theorem launchPlacesImageHandlersAndSp : Obligations.LaunchPlacesImageHandlersAndSp := by
  unfold Obligations.LaunchPlacesImageHandlersAndSp
  intro l hmin hmax hfits
  refine ⟨l.machine, launch_of_fits hmin hmax hfits, l.machine_size, ?_, ?_, ?_, ?_, ⟨rfl, rfl⟩,
    Launch.machine_inv hmin hmax hfits, ?_⟩
  · exact fun i v hv => Launch.machine_readByte_image hfits hv
  · exact fun a himage ha => Launch.machine_readByte_above himage ha
  · exact State.getReg_setReg_same _ .sp l.spInit
  · exact fun r hr => l.machine_getReg_other hr
  · exact HandlerTable.find_ofEntries l.handlers

/-- Settles O15: reset fixes each control field, and an empty table has no handler. -/
theorem resetControlState : Obligations.ResetControlState := by
  unfold Obligations.ResetControlState
  exact ⟨rfl, fun _ => rfl, rfl, rfl⟩

/-- Settles O16: the default capacity is legal. -/
theorem resetSatisfiesInvariant : Obligations.ResetSatisfiesInvariant := by
  unfold Obligations.ResetSatisfiesInvariant
  exact State.resetWith_inv (by decide)

/-- Settles O18: the image's load fails, which the launch refuses. -/
theorem launchRefusesImageThatDoesNotFit : Obligations.LaunchRefusesImageThatDoesNotFit := by
  unfold Obligations.LaunchRefusesImageThatDoesNotFit
  intro l hmin hmax hlong
  exact launch_of_not_fits hmin hmax hlong

/-- Settles O39: the halt flag the handler sets is tested before the next step. -/
theorem haltHandlerEndsTheRun : Obligations.HaltHandlerEndsTheRun := by
  unfold Obligations.HaltHandlerEndsTheRun
  intro id s h hrun
  exact ⟨exec_signal_haltHandler h, step_running_halt hrun rfl⟩
end
